-- ==== Sys2Proof/Word.lean ====
section
/-!
DEFINITION. The cell type: one signed 64-bit integer (00_scope.md R4, 20_memory.md R31).
A `Word` is read as the integer `Word.toInt`; the range INT_MIN..INT_MAX is therefore part of the type.
-/

namespace Sys2Proof

/-- One memory cell, one operand value, one queue element, the relative base: 64 bits, read signed (R4, R31). -/
abbrev Word := BitVec 64

/-- INT_MIN, the least cell value (R4). -/
def intMin : Int := -(2 ^ 63)

/-- INT_MAX, the greatest cell value (R4). -/
def intMax : Int := 2 ^ 63 - 1

end Sys2Proof
end

