-- ==== Sys2Proof/Syntax.lean ====
section
/-!
DEFINITION. The instructions (30_encoding.md R53, R54): one constructor per row of spec/opcode_table.json.
An operand keeps its addressing-mode digit and its parameter word; the `excess` field keeps the digits of the
instruction word above the last operand's (R51, R59). Nothing of an instruction word is lost, so an instruction
whose modes are illegal is a term too: R61 says when, among the other faults, its mode faults.
-/

namespace Sys2Proof

/-- One addressing-mode digit (R51, R56): 0, 1, 2, and the digits 3 to 9 that the spec gives no mode (R58);
`reserved k` is the digit `3 + k`. -/
inductive Mode where
  | absolute
  | immediate
  | relative
  | reserved (k : Fin 7)
  deriving DecidableEq, Repr

/-- Operand `i`: its mode digit and its parameter word `P[i]` (R50, R51). -/
structure Operand where
  mode : Mode
  word : Word
  deriving DecidableEq, Repr

/-- Whether an operand is resolved to a value or to an address (R55). -/
inductive Role where
  | read
  | write
  deriving DecidableEq, Repr

/-- The ten instructions of R53, operands in their declared order. -/
inductive Instr where
  /-- opcode 1, `read a, read b, write t` (R71) -/
  | add (excess : Nat) (a b t : Operand)
  /-- opcode 2, `read a, read b, write t` (R72) -/
  | multiply (excess : Nat) (a b t : Operand)
  /-- opcode 3, `write t` (R75) -/
  | input (excess : Nat) (t : Operand)
  /-- opcode 4, `read a` (R76) -/
  | output (excess : Nat) (a : Operand)
  /-- opcode 5, `read c, read target` (R80) -/
  | jumpIfTrue (excess : Nat) (c target : Operand)
  /-- opcode 6, `read c, read target` (R81) -/
  | jumpIfFalse (excess : Nat) (c target : Operand)
  /-- opcode 7, `read a, read b, write t` (R85) -/
  | lessThan (excess : Nat) (a b t : Operand)
  /-- opcode 8, `read a, read b, write t` (R86) -/
  | equals (excess : Nat) (a b t : Operand)
  /-- opcode 9, `read a` (R90) -/
  | adjustRelativeBase (excess : Nat) (a : Operand)
  /-- opcode 99, no operand (R91) -/
  | halt (excess : Nat)
  deriving DecidableEq, Repr

/-- Why a decoder names no instruction (R52, R60). Both are the fault `UnknownOpcode` of R131. -/
inductive DecodeError where
  /-- the instruction word is negative (R52) -/
  | negativeWord (w : Word)
  /-- `w mod 100` is none of 1..9, 99 (R60) -/
  | unknownOpcode (op : Nat)
  deriving DecidableEq, Repr

end Sys2Proof
end

