-- ==== Sys2Proof/Decode.lean ====
section
/-!
DEFINITION. Decoding an instruction's cells and encoding it back (30_encoding.md R50 to R54, R58 to R60, R64).
`decode` is total: every quadruple of cells is an instruction or a rejection by name. It reads the digits; what
the digits then do (resolving operands, faulting on a mode) is Machine/Operands.lean, in the order of R61.
The opcode numbers 5 to 8 are PRESUMED by the spec itself (D1; log entry 8); unsafe if wrong.
-/

namespace Sys2Proof

/-- The mode a decimal digit selects; only the units digit of `d` is looked at (R51, R56, R58). -/
def Mode.ofDigit (d : Nat) : Mode :=
  match d % 10 with
  | 0 => .absolute
  | 1 => .immediate
  | 2 => .relative
  | k + 3 => .reserved (Fin.ofNat 7 k)

/-- The decimal digit of a mode (R51). -/
def Mode.digit : Mode → Nat
  | .absolute => 0
  | .immediate => 1
  | .relative => 2
  | .reserved k => 3 + k.val

/-- Opcode numbers (R53). -/
def Instr.opcode : Instr → Nat
  | .add _ _ _ _ => 1
  | .multiply _ _ _ _ => 2
  | .input _ _ => 3
  | .output _ _ => 4
  | .jumpIfTrue _ _ _ => 5
  | .jumpIfFalse _ _ _ => 6
  | .lessThan _ _ _ _ => 7
  | .equals _ _ _ _ => 8
  | .adjustRelativeBase _ _ => 9
  | .halt _ => 99

/-- The operands with their roles, in declared order (R53, R54, R57). -/
def Instr.operands : Instr → List (Role × Operand)
  | .add _ a b t => [(.read, a), (.read, b), (.write, t)]
  | .multiply _ a b t => [(.read, a), (.read, b), (.write, t)]
  | .input _ t => [(.write, t)]
  | .output _ a => [(.read, a)]
  | .jumpIfTrue _ c t => [(.read, c), (.read, t)]
  | .jumpIfFalse _ c t => [(.read, c), (.read, t)]
  | .lessThan _ a b t => [(.read, a), (.read, b), (.write, t)]
  | .equals _ a b t => [(.read, a), (.read, b), (.write, t)]
  | .adjustRelativeBase _ a => [(.read, a)]
  | .halt _ => []

/-- The excess field: the digits above the last operand's mode digit, `w div 10^(2+n)` (R59). -/
def Instr.excess : Instr → Nat
  | .add x _ _ _ => x
  | .multiply x _ _ _ => x
  | .input x _ => x
  | .output x _ => x
  | .jumpIfTrue x _ _ => x
  | .jumpIfFalse x _ _ => x
  | .lessThan x _ _ _ => x
  | .equals x _ _ _ => x
  | .adjustRelativeBase x _ => x
  | .halt x => x

/-- The length in cells, `1 + n` (R50, R54). -/
def Instr.length (i : Instr) : Nat := 1 + i.operands.length

/-- The number whose decimal digits, least significant first, are the operands' mode digits and then the excess
(R51, R59): the quotient of the instruction word by 100. -/
def modeDigits : List (Role × Operand) → Nat → Nat
  | [], x => x
  | o :: os, x => o.2.mode.digit + 10 * modeDigits os x

/-- The instruction word as a number: opcode + 100*mode(1) + 1000*mode(2) + 10000*mode(3) and the excess
digits above (R51, R64). -/
def Instr.wordValue (i : Instr) : Nat := i.opcode + 100 * modeDigits i.operands i.excess

/-- The cells of an instruction: the instruction word, then the parameter words in operand order (R50, R64). -/
def encode (i : Instr) : List Word :=
  BitVec.ofNat 64 i.wordValue :: i.operands.map fun o => o.2.word

/-- The instruction read from its cells: `w` at the lowest address, then `p1 p2 p3` (R50, R51, R52, R53, R60).
Cells beyond the instruction's length are not used. -/
def decode (w p1 p2 p3 : Word) : Except DecodeError Instr :=
  if w.toInt < 0 then .error (.negativeWord w)
  else
    let n := w.toNat
    let o1 : Operand := ⟨Mode.ofDigit (n / 100), p1⟩
    let o2 : Operand := ⟨Mode.ofDigit (n / 1000), p2⟩
    let o3 : Operand := ⟨Mode.ofDigit (n / 10000), p3⟩
    match n % 100 with
    | 1 => .ok (.add (n / 100000) o1 o2 o3)
    | 2 => .ok (.multiply (n / 100000) o1 o2 o3)
    | 3 => .ok (.input (n / 1000) o1)
    | 4 => .ok (.output (n / 1000) o1)
    | 5 => .ok (.jumpIfTrue (n / 10000) o1 o2)
    | 6 => .ok (.jumpIfFalse (n / 10000) o1 o2)
    | 7 => .ok (.lessThan (n / 100000) o1 o2 o3)
    | 8 => .ok (.equals (n / 100000) o1 o2 o3)
    | 9 => .ok (.adjustRelativeBase (n / 1000) o1)
    | 99 => .ok (.halt (n / 100))
    | op => .error (.unknownOpcode op)

/-- The value an `UnknownOpcode` fault records: the opcode, or the word itself when it is negative (R130, R131). -/
def DecodeError.value : DecodeError → Int
  | .negativeWord w => w.toInt
  | .unknownOpcode op => op

/-- The most cells an instruction has (R50). -/
def maxLength : Nat := 4

/-- Cell `k` of an instruction given as one number: 64 bits a cell, the first cell lowest. The host's numbering of
an instruction's bits, not the spec's (log entry 5): the spec has no bit numbering (R5) and no byte order (R37). -/
def cellOfBits (nbits w k : Nat) : Word := BitVec.ofNat 64 (w % 2 ^ nbits / 2 ^ (64 * k))

/-- The instruction `decode` reads from an instruction given as one number of `nbits` bits, every bit above zero. -/
def decodeTableWord (nbits w : Nat) : Option Instr :=
  (decode (cellOfBits nbits w 0) (cellOfBits nbits w 1) (cellOfBits nbits w 2) (cellOfBits nbits w 3)).toOption

end Sys2Proof
end

