-- ==== Sys2Proof/Config.lean ====
section
/-!
DEFINITION. The three OPEN parameters of 00_scope.md R4. `Machine.State` carries one `Config` in its field `cfg`,
which nothing changes, so a statement over every state is a statement over every choice of the parameters.
DESIGN CHOICE (log entry 1): R24 calls them parameters of the step relation; safe.
-/

namespace Sys2Proof

/-- OVERFLOW_POLICY: what Add, Multiply and AdjustRelativeBase do out of range (R4, R73). -/
inductive OverflowPolicy where
  | fault
  | wrap
  deriving DecidableEq, Repr

/-- EXCESS_MODE_DIGITS: what decode does with a non-zero digit above the last operand's (R4, R59). -/
inductive ExcessPolicy where
  | ignore
  | fault
  deriving DecidableEq, Repr

/-- The OPEN parameters. `memMax` is MEM_MAX, a number of cells with `0 <= MEM_MAX <= 2^63` (R4, R36). -/
structure Config where
  memMax : Fin (2 ^ 63 + 1)
  overflow : OverflowPolicy
  excess : ExcessPolicy
  deriving DecidableEq, Repr

/-- The defaults of R4: MEM_MAX = 2^63, OVERFLOW_POLICY = fault, EXCESS_MODE_DIGITS = ignore.
DESIGN CHOICE of the spec (D4, D7, D8; log entry 2); unsafe where the block rejects excess digits. -/
def Config.standard : Config := ⟨⟨2 ^ 63, by decide⟩, .fault, .ignore⟩

end Sys2Proof
end

