-- ==== Sys2Proof/Machine/State.lean ====
section
/-!
DEFINITION. The architectural state (10_state.md R10, "exactly the tuple"), the fault record, and the state after
reset (R23, 70_reset_and_hazards.md R160, R161).
-/

namespace Sys2Proof.Machine

/-- The run state (R16). -/
inductive Status where
  | running
  | awaitingInput
  | halted
  | faulted
  deriving DecidableEq, Repr

/-- The six fault kinds (R130). Their entry (R137) is a next state of the machine. -/
inductive FaultKind where
  | unknownOpcode
  | invalidAddressMode
  | negativeAddress
  | negativeJumpTarget
  | arithmeticOverflow
  | memoryExhausted
  deriving DecidableEq, Repr

/-- The fault record (R17): the kind, the address of the faulting instruction's word, that word, and a
kind-specific integer (R130). -/
structure FaultRecord where
  kind : FaultKind
  pc : BitVec 64
  word : Word
  value : Int
  deriving DecidableEq, Repr

/-- Why an instruction is abandoned before its end (R6, R7): `raise <Fault>(info)` or `suspend AwaitingInput`. -/
inductive Abort where
  | fault (kind : FaultKind) (value : Int)
  | awaitingInput
  deriving DecidableEq, Repr

/-- Memory (R11): `len` cells exist; `cells` lists, addresses rising, the cells that do not hold 0.
An address not listed reads 0, whether or not the cell exists (R11, R34 item 4). -/
structure Memory where
  cells : List (Nat × Word)
  len : Nat
  deriving DecidableEq, Repr

/-- The machine's state. All items are R10's but `cfg`, the model's own (log entry 1). -/
structure State where
  /-- the OPEN parameters (R4, R24); nothing changes them -/
  cfg : Config
  /-- `mem` and `len` (R11) -/
  mem : Memory
  /-- the program counter (R13) -/
  pc : BitVec 64
  /-- the relative base (R14) -/
  rb : Word
  /-- the Halted flag (R15) -/
  halted : Bool
  /-- the run state (R16) -/
  status : Status
  /-- the fault record (R17) -/
  fault : Option FaultRecord
  /-- the input queue, front first (R18) -/
  inq : List Word
  /-- the output sequence, oldest first (R19) -/
  out : List Word
  deriving DecidableEq, Repr

/-- Why a step ends in a stop. No constructor: the step function is total (R101, 93_implementation_defined.md), a
machine fault enters a next state (R137), and a step of a halted or faulted machine changes nothing (R110, R111). -/
inductive Fault where
  deriving DecidableEq, Repr

/-- Why the model gives an instruction no meaning. -/
inductive Refusal where
  /-- raised by `exec` for an instruction not modelled; no arm raises it. Safe. -/
  | notModelled (mnemonic : String)
  deriving DecidableEq, Repr

/-- The machine right after reset: `new` of the empty program under the default parameters (R23, R160, R161;
log entries 2 and 3). -/
def State.reset : State where
  cfg := Config.standard
  mem := ⟨[], 0⟩
  pc := 0
  rb := 0
  halted := false
  status := .running
  fault := none
  inq := []
  out := []

end Sys2Proof.Machine
end

