-- ==== Sys2Proof/Machine/Ops.lean ====
section
/-!
DEFINITION. The named operations over memory and state: the access primitives (20_memory.md R32, R33), fault entry
(60_exceptions.md R137), suspension (50_run_controller.md R108) and the commit of an instruction (R7, R47).
There is no return from a fault (R139), so no operation stands beside fault entry.
-/

namespace Sys2Proof.Machine

/-- What the step, the meanings and `exec` answer. -/
abbrev Answer := Host.Outcome State Fault Refusal

/-- The value at an address of a cell list: the listed one, else 0 (R11). -/
def readCells : List (Nat × Word) → Nat → Word
  | [], _ => 0
  | (a, v) :: rest, x => if a = x then v else readCells rest x

/-- A cell list with one value replaced; a zero is not listed. -/
def writeCells : List (Nat × Word) → Nat → Word → List (Nat × Word)
  | [], x, v => if v = 0 then [] else [(x, v)]
  | (a, w) :: rest, x, v =>
    if x < a then (if v = 0 then (a, w) :: rest else (x, v) :: (a, w) :: rest)
    else if x = a then (if v = 0 then rest else (x, v) :: rest)
    else (a, w) :: writeCells rest x v

/-- The addresses of a cell list, each above the one before and all below `hi`, no value zero. -/
def cellsOrdered : List (Nat × Word) → Nat → Nat → Bool
  | [], _, _ => true
  | (a, v) :: rest, lo, hi => decide (lo ≤ a ∧ a < hi ∧ v ≠ 0) && cellsOrdered rest (a + 1) hi

/-- The canonical form: addresses strictly rising and below `len`, no listed zero. -/
def Memory.wf (m : Memory) : Bool := cellsOrdered m.cells 0 m.len

/-- What an address reads as, without any growth (R11). -/
def Memory.read (m : Memory) (a : Nat) : Word := readCells m.cells a

/-- Growth up to and including address `a` (R32, R34): new cells are zero, so only `len` changes. -/
def Memory.grow (m : Memory) (a : Nat) : Memory := { m with len := max m.len (a + 1) }

/-- One cell replaced, after growth (R33). -/
def Memory.write (m : Memory) (a : Nat) (v : Word) : Memory :=
  ⟨writeCells m.cells a v, max m.len (a + 1)⟩

/-- `raise <Fault>(info)` (R6). -/
def raise {α : Type} (kind : FaultKind) (value : Int) : Except Abort α := .error (.fault kind value)

/-- `MemRead(a)` (R32, R36). -/
def memRead (a : Nat) (s : State) : Except Abort (Word × State) :=
  if a < s.cfg.memMax.val then .ok (s.mem.read a, { s with mem := s.mem.grow a })
  else raise .memoryExhausted a

/-- `MemWrite(a, v)` (R33, R36). -/
def memWrite (a : Nat) (v : Word) (s : State) : Except Abort State :=
  if a < s.cfg.memMax.val then .ok { s with mem := s.mem.write a v }
  else raise .memoryExhausted a

/-- `pc <- pc + n` (R13). -/
def advance (n : Nat) (s : State) : State := { s with pc := s.pc + BitVec.ofNat 64 n }

/-- The raw instruction word a fault record holds: `mem[pc]`, or 0 if `pc >= len` (R17, R137). -/
def faultWord (s : State) : Word := if s.pc.toNat < s.mem.len then s.mem.read s.pc.toNat else 0

/-- Fault entry (R137): the record and the status, nothing else. DESIGN CHOICE of the spec (D12; log entry 11). -/
def takeFault (kind : FaultKind) (value : Int) (s : State) : State :=
  { s with status := .faulted, fault := some ⟨kind, s.pc, faultWord s, value⟩ }

/-- Suspension (R108): the status, nothing else. -/
def suspend (s : State) : State := { s with status := .awaitingInput }

/-- The state in which an abandoned instruction leaves the machine it found in `s` (R6, R47, R102, R137). -/
def abandon (s : State) : Abort → State
  | .fault kind value => takeFault kind value s
  | .awaitingInput => suspend s

/-- The end of an instruction (R7, R47): the private copy is committed when the pseudocode reached its end and
discarded when it did not. -/
def commit (s : State) : Except Abort State → Answer
  | .ok s' => .next s'
  | .error e => .next (abandon s e)

/-- The cell list and length with the cells of a list placed at consecutive addresses from `a` (R40). -/
def Memory.place (m : Memory) (a : Nat) : List Word → Memory
  | [] => m
  | v :: vs => Memory.place (m.write a v) (a + 1) vs

end Sys2Proof.Machine
end

