-- ==== Sys2Proof/Machine/Flags.lean ====
section
/-!
DEFINITION. The ALU (40_arithmetic.md R70, R73; 43_compare.md). The machine has no flags and no condition codes
(10_state.md R20): a comparison writes a cell, a jump tests a value against zero.
-/

namespace Sys2Proof.Machine

/-- The exact result is a cell value (R6, R73). -/
def fits64 (x : Int) : Bool := decide (intMin ≤ x ∧ x ≤ intMax)

/-- `wrap64(x)`: the cell value congruent to `x` modulo 2^64 (R6). -/
def wrap64 (x : Int) : Word := BitVec.ofInt 64 x

/-- `chk64(x)` (R6, R73). -/
def chk64 (cfg : Config) (x : Int) : Except Abort Word :=
  if fits64 x then .ok (wrap64 x)
  else match cfg.overflow with
    | .fault => raise .arithmeticOverflow (wrap64 x).toInt
    | .wrap => .ok (wrap64 x)

/-- The cell value a comparison writes: exactly 1 or 0 (R85, R86). -/
def boolCell (b : Bool) : Word := if b then 1 else 0

/-- `a < b` on signed values (R85). -/
def lessThanCell (a b : Word) : Word := boolCell (decide (a.toInt < b.toInt))

/-- `a == b` (R86). -/
def equalsCell (a b : Word) : Word := boolCell (decide (a = b))

end Sys2Proof.Machine
end

