-- ==== Sys2Proof/Machine/Operands.lean ====
section
/-!
DEFINITION. Operand resolution (30_encoding.md R55 to R59) in the order of R61. Each operation works on a private
copy of the state, in which the reads' growth gathers; the copy becomes the state only if the instruction
completes (20_memory.md R47).
The parameter words come with the instruction: `P[i]` is the operand's `word`, and reading it here is the growth and
the MEM_MAX check that `MemRead(pc + i)` does (log entry 4).
-/

namespace Sys2Proof.Machine

/-- The address an operand in mode 0 or 2 names: `P[i]`, or the exact sum `P[i] + rb` (R56, R57, R67).
DESIGN CHOICE of the spec: the sum is not wrapped (D10; log entry 12). -/
def operandAddress (o : Operand) (rb : Word) : Int :=
  match o.mode with
  | .relative => o.word.toInt + rb.toInt
  | _ => o.word.toInt

/-- The read of an operand's cell: its address's sign, its bound, its value (R56, R61). -/
def readAddress (a : Int) (s : State) : Except Abort (Word × State) :=
  if a < 0 then raise .negativeAddress a else memRead a.toNat s

/-- `val(i)` with the fetch of `P[i]` before it (R56, R58, R61). -/
def readOperand (i : Nat) (o : Operand) (s : State) : Except Abort (Word × State) := do
  let (_, s1) ← memRead (s.pc.toNat + i) s
  match o.mode with
  | .absolute => readAddress (operandAddress o s.rb) s1
  | .immediate => .ok (o.word, s1)
  | .relative => readAddress (operandAddress o s.rb) s1
  | .reserved _ => raise .invalidAddressMode o.mode.digit

/-- The check of a write target's address: its sign, its bound; the cell is not read (R57). -/
def targetAddress (a : Int) (s : State) : Except Abort (Nat × State) :=
  if a < 0 then raise .negativeAddress a
  else if a.toNat < s.cfg.memMax.val then .ok (a.toNat, s)
  else raise .memoryExhausted a

/-- `addr(i)` with the fetch of `P[i]` before it (R57, R58, R61). -/
def writeOperand (i : Nat) (o : Operand) (s : State) : Except Abort (Nat × State) := do
  let (_, s1) ← memRead (s.pc.toNat + i) s
  match o.mode with
  | .absolute => targetAddress (operandAddress o s.rb) s1
  | .immediate => raise .invalidAddressMode o.mode.digit
  | .relative => targetAddress (operandAddress o s.rb) s1
  | .reserved _ => raise .invalidAddressMode o.mode.digit

/-- The instruction-word fetch and the check of the excess digits (R59, R61). -/
def fetchWord (excess : Nat) (s : State) : Except Abort State := do
  let (_, s1) ← memRead s.pc.toNat s
  if s.cfg.excess = .fault ∧ excess ≠ 0 then raise .invalidAddressMode excess else .ok s1

/-- Operand resolution of format R: one read operand (R54). -/
def resolveR (excess : Nat) (a : Operand) (s : State) : Except Abort (Word × State) := do
  let s0 ← fetchWord excess s
  readOperand 1 a s0

/-- Operand resolution of format W: one write target (R54). -/
def resolveW (excess : Nat) (t : Operand) (s : State) : Except Abort (Nat × State) := do
  let s0 ← fetchWord excess s
  writeOperand 1 t s0

/-- Operand resolution of format RR: two read operands (R54). -/
def resolveRR (excess : Nat) (a b : Operand) (s : State) : Except Abort (Word × Word × State) := do
  let (va, s1) ← resolveR excess a s
  let (vb, s2) ← readOperand 2 b s1
  .ok (va, vb, s2)

/-- Operand resolution of format RRW: two read operands and a write target (R54). -/
def resolveRRW (excess : Nat) (a b t : Operand) (s : State) : Except Abort (Word × Word × Nat × State) := do
  let (va, vb, s2) ← resolveRR excess a b s
  let (at', s3) ← writeOperand 3 t s2
  .ok (va, vb, at', s3)

/-- Format RRW as a whole: resolve, compute, write the result, advance by 4 (R71, R72, R85, R86). -/
def runRRW (alu : Config → Word → Word → Except Abort Word) (excess : Nat) (a b t : Operand) (s : State) :
    Except Abort State := do
  let (va, vb, addr, s1) ← resolveRRW excess a b t s
  let r ← alu s.cfg va vb
  let s2 ← memWrite addr r s1
  .ok (advance 4 s2)

/-- Format RR as a whole: resolve, then jump to the target if the condition holds, else advance by 3
(R80, R81, R82). A taken jump to a negative target faults: DESIGN CHOICE of the spec (D11; log entry 13). -/
def runJump (holds : Word → Bool) (excess : Nat) (c target : Operand) (s : State) : Except Abort State := do
  let (vc, vt, s1) ← resolveRR excess c target s
  if holds vc then
    if vt.toInt < 0 then raise .negativeJumpTarget vt.toInt else .ok { s1 with pc := vt }
  else .ok (advance 3 s1)

end Sys2Proof.Machine
end

