-- ==== Sys2Proof/Machine/Arithmetic.lean ====
section
/-!
DEFINITION. Add and Multiply (40_arithmetic.md R71, R72).
-/

namespace Sys2Proof.Machine

/-- Add: `mem[t] <- chk64(a + b)`, `pc <- pc + 4` (R71). -/
def execAdd (excess : Nat) (a b t : Operand) (s : State) : Answer :=
  commit s (runRRW (fun cfg va vb => chk64 cfg (va.toInt + vb.toInt)) excess a b t s)

/-- Multiply: `mem[t] <- chk64(a * b)`, `pc <- pc + 4` (R72). -/
def execMultiply (excess : Nat) (a b t : Operand) (s : State) : Answer :=
  commit s (runRRW (fun cfg va vb => chk64 cfg (va.toInt * vb.toInt)) excess a b t s)

end Sys2Proof.Machine
end

