-- ==== Sys2Proof/Machine/Compare.lean ====
section
/-!
DEFINITION. LessThan and Equals (43_compare.md R85, R86).
-/

namespace Sys2Proof.Machine

/-- LessThan: `mem[t] <- 1` if `a < b` signed, else 0; `pc <- pc + 4` (R85). -/
def execLessThan (excess : Nat) (a b t : Operand) (s : State) : Answer :=
  commit s (runRRW (fun _ va vb => .ok (lessThanCell va vb)) excess a b t s)

/-- Equals: `mem[t] <- 1` if `a = b`, else 0; `pc <- pc + 4` (R86). -/
def execEquals (excess : Nat) (a b t : Operand) (s : State) : Answer :=
  commit s (runRRW (fun _ va vb => .ok (equalsCell va vb)) excess a b t s)

end Sys2Proof.Machine
end

