-- ==== Sys2Proof/Machine/Control.lean ====
section
/-!
DEFINITION. AdjustRelativeBase and Halt (44_relbase_halt.md R90, R91).
-/

namespace Sys2Proof.Machine

/-- AdjustRelativeBase: `rb <- chk64(rb + a)`, `a` resolved with the old `rb`; `pc <- pc + 2` (R90). -/
def execAdjustRelativeBase (excess : Nat) (a : Operand) (s : State) : Answer :=
  commit s (do
    let (va, s1) ← resolveR excess a s
    let r ← chk64 s.cfg (s.rb.toInt + va.toInt)
    .ok (advance 2 { s1 with rb := r }))

/-- Halt: `halted <- true`, `status <- Halted`, `pc <- pc + 1` (R91; the advance is the spec's DESIGN CHOICE D19,
log entry 14). -/
def execHalt (excess : Nat) (s : State) : Answer :=
  commit s (do
    let s1 ← fetchWord excess s
    .ok (advance 1 { s1 with halted := true, status := .halted }))

end Sys2Proof.Machine
end

