-- ==== Sys2Proof/Machine/InputOutput.lean ====
section
/-!
DEFINITION. Input and Output (41_io.md R75, R76).
-/

namespace Sys2Proof.Machine

/-- Input (R75): the target is resolved first; an empty queue suspends and changes nothing else; otherwise the
front element is removed and written, and `pc <- pc + 2`. -/
def execInput (excess : Nat) (t : Operand) (s : State) : Answer :=
  commit s (do
    let (addr, s1) ← resolveW excess t s
    match s.inq with
    | [] => .error .awaitingInput
    | v :: rest =>
      let s2 ← memWrite addr v { s1 with inq := rest }
      .ok (advance 2 s2))

/-- Output (R76): the operand's value is appended to `out`, and `pc <- pc + 2`. -/
def execOutput (excess : Nat) (a : Operand) (s : State) : Answer :=
  commit s (do
    let (va, s1) ← resolveR excess a s
    .ok (advance 2 { s1 with out := s1.out ++ [va] }))

end Sys2Proof.Machine
end

