-- ==== Sys2Proof/Machine/Jumps.lean ====
section
/-!
DEFINITION. JumpIfTrue and JumpIfFalse (42_jumps.md R80, R81, R82).
-/

namespace Sys2Proof.Machine

/-- JumpIfTrue: jump when the condition value is not 0 (R80). -/
def execJumpIfTrue (excess : Nat) (c target : Operand) (s : State) : Answer :=
  commit s (runJump (fun v => decide (v ≠ 0)) excess c target s)

/-- JumpIfFalse: jump when the condition value is 0 (R81). -/
def execJumpIfFalse (excess : Nat) (c target : Operand) (s : State) : Answer :=
  commit s (runJump (fun v => decide (v = 0)) excess c target s)

end Sys2Proof.Machine
end

