-- ==== Sys2Proof/Machine/Dispatch.lean ====
section
/-!
DEFINITION. One arm per instruction (30_encoding.md R53).
-/

namespace Sys2Proof.Machine

def exec (i : Instr) (s : State) : Host.Outcome State Fault Refusal :=
  match i with
  | .add x a b t => Sys2Proof.Machine.execAdd x a b t s
  | .multiply x a b t => Sys2Proof.Machine.execMultiply x a b t s
  | .input x t => Sys2Proof.Machine.execInput x t s
  | .output x a => Sys2Proof.Machine.execOutput x a s
  | .jumpIfTrue x c t => Sys2Proof.Machine.execJumpIfTrue x c t s
  | .jumpIfFalse x c t => Sys2Proof.Machine.execJumpIfFalse x c t s
  | .lessThan x a b t => Sys2Proof.Machine.execLessThan x a b t s
  | .equals x a b t => Sys2Proof.Machine.execEquals x a b t s
  | .adjustRelativeBase x a => Sys2Proof.Machine.execAdjustRelativeBase x a s
  | .halt x => Sys2Proof.Machine.execHalt x s

end Sys2Proof.Machine
end

