-- ==== Sys2Proof/Machine/Fetch.lean ====
section
/-!
DEFINITION. What a step does before an instruction runs: the entry of a run call (50_run_controller.md R102, R109 to
R111), and fetching and decoding at `pc` (30_encoding.md R61).
-/

namespace Sys2Proof.Machine

/-- The entry of a run call: a terminal machine runs nothing; any other is Running (R102, R109, R110, R111). -/
def enterRun (s : State) : Option State :=
  match s.status with
  | .halted => none
  | .faulted => none
  | .running => some { s with status := .running }
  | .awaitingInput => some { s with status := .running }

/-- The instruction at `pc`, or the fault of its instruction word (R61, R131, R136). The cells are looked at
without growth; the instruction's meaning grows memory as its reads do (log entry 4). -/
def fetch (s : State) : Except Abort Instr :=
  if s.pc.toNat < s.cfg.memMax.val then
    match decode (s.mem.read s.pc.toNat) (s.mem.read (s.pc.toNat + 1)) (s.mem.read (s.pc.toNat + 2))
        (s.mem.read (s.pc.toNat + 3)) with
    | .ok i => .ok i
    | .error e => raise .unknownOpcode e.value
  else raise .memoryExhausted s.pc.toNat

/-- Memory with the cells of an instruction given as one number placed where the next fetch reads. -/
def placeInstruction (s : State) (nbits w : Nat) : State :=
  { s with mem := s.mem.place s.pc.toNat ((List.range maxLength).map (cellOfBits nbits w)) }

end Sys2Proof.Machine
end

