-- ==== Sys2Proof/Machine/Step.lean ====
section
/-!
DEFINITION. One step of the machine: one turn of the loop that every run call is (50_run_controller.md R101, R102).
-/

namespace Sys2Proof.Machine

/-- One step. A halted or faulted machine stays as it is (R110, R111; log entry 10); any other runs the
instruction at `pc`, as the first turn of a run call does (R102, R109; log entry 9). -/
def step (s : State) : Host.Outcome State Fault Refusal :=
  match enterRun s with
  | none => .next s
  | some r =>
    match fetch r with
    | .error e => .next (abandon r e)
    | .ok i => exec i r

/-- `s` with an instruction stored at `pc` (log entry 3: this stands for the load that `new` does). -/
def State.withFetchWord (s : State) (nbits w : Nat) : State := placeInstruction s nbits w

end Sys2Proof.Machine
end

