-- ==== Sys2Proof/Machine/ProgramText.lean ====
section
/-!
DEFINITION. The program text format (30_encoding.md R63) and the host-level errors of making a machine
(60_exceptions.md R141, 70_reset_and_hazards.md R160). Text is a list of characters.
The details the source leaves open follow the spec's DESIGN CHOICE D23 (log entry 16).
-/

namespace Sys2Proof.Machine

/-- Why no machine is made (R141, R160). -/
inductive HostError where
  /-- the text is malformed (R63) -/
  | parseError
  /-- the program has more cells than MEM_MAX (R160) -/
  | programTooLong
  deriving DecidableEq, Repr

/-- `ws` of R63: space, tab, CR, LF. -/
def isBlank (c : Char) : Bool := c == ' ' || c == '\t' || c == '\r' || c == '\n'

/-- A token without the blanks around it (R63). -/
def trimBlanks (cs : List Char) : List Char := ((cs.dropWhile isBlank).reverse.dropWhile isBlank).reverse

/-- The value of a decimal digit. -/
def digitValue (c : Char) : Option Nat := if '0' ≤ c ∧ c ≤ '9' then some (c.toNat - 48) else none

/-- Digits read left to right onto a value. -/
def readDigits : List Char → Nat → Option Nat
  | [], acc => some acc
  | c :: cs, acc => (digitValue c).bind fun d => readDigits cs (10 * acc + d)

/-- `digit+` (R63). -/
def readNat : List Char → Option Nat
  | [] => none
  | c :: cs => readDigits (c :: cs) 0

/-- `[ "+" | "-" ] digit+` (R63). -/
def readInt : List Char → Option Int
  | '-' :: cs => (readNat cs).map fun n : Nat => -(n : Int)
  | '+' :: cs => (readNat cs).map fun n : Nat => (n : Int)
  | cs => (readNat cs).map fun n : Nat => (n : Int)

/-- A token, refused when it is no integer or out of range (R63). -/
def readToken (cs : List Char) : Option Word :=
  (readInt (trimBlanks cs)).bind fun x => if fits64 x then some (wrap64 x) else none

/-- The pieces of a text between its commas; always at least one. -/
def splitCommas : List Char → List (List Char)
  | [] => [[]]
  | c :: cs =>
    match splitCommas cs with
    | [] => [[c]]
    | t :: ts => if c = ',' then [] :: t :: ts else (c :: t) :: ts

/-- Every token's value, if every token has one. -/
def readTokens : List (List Char) → Option (List Word)
  | [] => some []
  | t :: ts => (readToken t).bind fun w => (readTokens ts).map fun ws => w :: ws

/-- The loader: the cells of a program text, or `ParseError` (R63, R141). -/
def parseProgram (cs : List Char) : Except HostError (List Word) :=
  match readTokens (splitCommas cs) with
  | some ws => .ok ws
  | none => .error .parseError

/-- The shortest decimal form of a natural number (R63). -/
def showNat (n : Nat) : List Char :=
  if n = 0 then ['0'] else (Nat.digits 10 n).reverse.map fun d => Char.ofNat (48 + d)

/-- The shortest decimal form of a cell value (R63). -/
def showWord (w : Word) : List Char :=
  if w.toInt < 0 then '-' :: showNat w.toInt.natAbs else showNat w.toInt.natAbs

/-- The canonical text of a program (R63): shortest forms joined by single commas. -/
def serializeProgram : List Word → List Char
  | [] => []
  | [w] => showWord w
  | w :: v :: ws => showWord w ++ ',' :: serializeProgram (v :: ws)

end Sys2Proof.Machine
end

