-- ==== Sys2Proof/Machine/Controller.lean ====
section
/-!
DEFINITION. The run-mode controller and the host's transactions with one machine (50_run_controller.md R101 to R106,
R112 to R115, R118). A run call may never return (R117): it runs under fuel, and `none` is no answer of the machine.
-/

namespace Sys2Proof.Machine

/-- The run modes of R103 to R105; an argument of each call, not state (R24). -/
inductive RunMode where
  | toHalt
  | toInput
  | nextOutput
  deriving DecidableEq, Repr

/-- The five outcomes of a step (R101). -/
inductive StepOutcome where
  | fault
  | suspend
  | halted
  | produced (v : Word)
  | continued
  deriving DecidableEq, Repr

/-- The return values of a run call (R102). `fault` returns the state's record. -/
inductive RunReturn where
  | alreadyHalted
  | halted
  | awaitingInput
  | output (v : Word)
  | fault (record : Option FaultRecord)
  deriving DecidableEq, Repr

/-- Why `run_to_next_output_n` ended (R106). -/
inductive EndReason where
  | complete
  | ended (r : RunReturn)
  deriving DecidableEq, Repr

/-- Which of R101's outcomes the step from `s` to `s'` had. The value produced is the one that this step appended
(R76, R105), not the last element ever appended. -/
def stepOutcome (s s' : State) : StepOutcome :=
  match s'.status with
  | .faulted => .fault
  | .awaitingInput => .suspend
  | .halted => .halted
  | .running =>
    match s'.out.drop s.out.length with
    | [] => .continued
    | v :: _ => .produced v

/-- The common loop (R102). -/
def runLoop (mode : RunMode) : Nat → State → Option (RunReturn × State)
  | 0, _ => none
  | fuel + 1, s =>
    match step s with
    | .next s' =>
      match stepOutcome s s' with
      | .fault => some (.fault s'.fault, s')
      | .suspend => some (.awaitingInput, s')
      | .halted => some (.halted, s')
      | .produced v => if mode = .nextOutput then some (.output v, s') else runLoop mode fuel s'
      | .continued => runLoop mode fuel s'
    | .fault _ => none
    | .refused _ => none

/-- A run call (R102 to R105, R109 to R111). -/
def run (mode : RunMode) (fuel : Nat) (s : State) : Option (RunReturn × State) :=
  match s.status with
  | .halted => some (.alreadyHalted, s)
  | .faulted => some (.fault s.fault, s)
  | .running => runLoop mode fuel { s with status := .running }
  | .awaitingInput => runLoop mode fuel { s with status := .running }

/-- `run_to_next_output_n(n)` (R106; DESIGN CHOICE D18 of the spec, log entry 15). -/
def runNextOutputN (fuel : Nat) : Nat → State → Option (List Word × EndReason × State)
  | 0, s => some ([], .complete, s)
  | n + 1, s =>
    match run .nextOutput fuel s with
    | none => none
    | some (.output v, s') => (runNextOutputN fuel n s').map fun r => (v :: r.1, r.2)
    | some (.alreadyHalted, s') => some ([], .ended .alreadyHalted, s')
    | some (.halted, s') => some ([], .ended .halted, s')
    | some (.awaitingInput, s') => some ([], .ended .awaitingInput, s')
    | some (.fault record, s') => some ([], .ended (.fault record), s')

/-- `new(program)` (R115, R160): refused when the program does not fit MEM_MAX. -/
def newMachine (cfg : Config) (program : List Word) : Except HostError State :=
  if program.length ≤ cfg.memMax.val then
    .ok { State.reset with cfg := cfg, mem := Memory.place ⟨[], 0⟩ 0 program }
  else .error .programTooLong

/-- Program text to machine (R162, steps 1 and 2). -/
def loadMachine (cfg : Config) (text : List Char) : Except HostError State :=
  match parseProgram text with
  | .ok program => newMachine cfg program
  | .error e => .error e

/-- `set_input(values)`: append (R112; DESIGN CHOICES D16 and D17 of the spec, log entry 15). -/
def setInput (values : List Word) (s : State) : State := { s with inq := s.inq ++ values }

/-- The memory dump: the cells that exist, in address order (R114; DESIGN CHOICE D27 of the spec, log entry 15). -/
def memoryDump (s : State) : List (Nat × Word) := (List.range s.mem.len).map fun a => (a, s.mem.read a)

/-- The transactions of a host with one machine (R118); `new` and clone are Machine/Fleet.lean's. -/
inductive Transaction where
  | setInput (values : List Word)
  | runToHalt
  | runToNextInputNeeded
  | runToNextOutput
  | runToNextOutputN (n : Nat)
  | inspectOutput
  | dumpMemory
  deriving DecidableEq, Repr

/-- What the host gets back (R121). -/
inductive Response where
  | done
  | returned (r : RunReturn)
  | collected (values : List Word) (reason : EndReason)
  | outputs (values : List Word)
  | dump (cells : List (Nat × Word))
  deriving DecidableEq, Repr

/-- One transaction on one machine (R121). `none`: a run call that has not returned within `fuel` steps (R117). -/
def transact (fuel : Nat) (t : Transaction) (s : State) : Option (Response × State) :=
  match t with
  | .setInput values => some (.done, setInput values s)
  | .runToHalt => (run .toHalt fuel s).map fun r => (.returned r.1, r.2)
  | .runToNextInputNeeded => (run .toInput fuel s).map fun r => (.returned r.1, r.2)
  | .runToNextOutput => (run .nextOutput fuel s).map fun r => (.returned r.1, r.2)
  | .runToNextOutputN n => (runNextOutputN fuel n s).map fun r => (.collected r.1 r.2.1, r.2.2)
  | .inspectOutput => some (.outputs s.out, s)
  | .dumpMemory => some (.dump (memoryDump s), s)

end Sys2Proof.Machine
end

