-- ==== Sys2Proof/Machine/Fleet.lean ====
section
/-!
DEFINITION. A host with several machines (50_run_controller.md R116, 60_exceptions.md R146). Machines share
nothing, so a fleet is a list of states and a call acts on one of them.
-/

namespace Sys2Proof.Machine

/-- What a host can do with its machines: make one, copy one, or use one. -/
inductive FleetCall where
  | new (cfg : Config) (program : List Word)
  | clone (k : Nat)
  | on (k : Nat) (t : Transaction)
  deriving DecidableEq, Repr

/-- What the host gets back. -/
inductive FleetResponse where
  /-- the number of the machine made -/
  | created (k : Nat)
  /-- no machine is made: the program does not fit (R160) -/
  | refused (e : HostError)
  /-- no machine has that number -/
  | noSuchMachine
  | answer (r : Response)
  deriving DecidableEq, Repr

/-- One call. A clone is a second machine equal to the first (R116; DESIGN CHOICE D28 of the spec, log entry 15). -/
def fleetCall (fuel : Nat) (c : FleetCall) (f : List State) : Option (FleetResponse × List State) :=
  match c with
  | .new cfg program =>
    match newMachine cfg program with
    | .ok s => some (.created f.length, f ++ [s])
    | .error e => some (.refused e, f)
  | .clone k =>
    match f[k]? with
    | some s => some (.created f.length, f ++ [s])
    | none => some (.noSuchMachine, f)
  | .on k t =>
    match f[k]? with
    | some s => (transact fuel t s).map fun r => (.answer r.1, f.set k r.2)
    | none => some (.noSuchMachine, f)

end Sys2Proof.Machine
end

