-- ==== Sys2Proof/Machine/Listing.lean ====
section
/-!
DEFINITION. The assembler notation (30_encoding.md R64): a mnemonic and its operands, `[n]` absolute, `#n` immediate,
`[rb+n]` or `[rb-n]` relative. The notation is the spec's own (DESIGN CHOICE D24; log entry 16).
-/

namespace Sys2Proof.Machine

/-- The variant names of R53, which are the mnemonics (R64). -/
def mnemonic : Instr → List Char
  | .add _ _ _ _ => "Add".toList
  | .multiply _ _ _ _ => "Multiply".toList
  | .input _ _ => "Input".toList
  | .output _ _ => "Output".toList
  | .jumpIfTrue _ _ _ => "JumpIfTrue".toList
  | .jumpIfFalse _ _ _ => "JumpIfFalse".toList
  | .lessThan _ _ _ _ => "LessThan".toList
  | .equals _ _ _ _ => "Equals".toList
  | .adjustRelativeBase _ _ => "AdjustRelativeBase".toList
  | .halt _ => "Halt".toList

/-- One operand with its mode mark; the notation has none for the digits 3 to 9 (R64). -/
def listOperand (o : Operand) : Option (List Char) :=
  match o.mode with
  | .absolute => some ('[' :: showWord o.word ++ [']'])
  | .immediate => some ('#' :: showWord o.word)
  | .relative =>
    if o.word.toInt < 0 then some ("[rb".toList ++ showWord o.word ++ [']'])
    else some ("[rb+".toList ++ showWord o.word ++ [']'])
  | .reserved _ => none

/-- The operands, separated by a comma and a space. -/
def listOperands : List (Role × Operand) → Option (List Char)
  | [] => some []
  | [o] => (listOperand o.2).map fun cs => ' ' :: cs
  | o :: p :: os => (listOperand o.2).bind fun cs => (listOperands (p :: os)).map fun rest => ' ' :: cs ++ ',' :: rest

/-- An instruction in R64's notation; none where the notation cannot write it (a reserved mode, an excess digit). -/
def listInstr (i : Instr) : Option (List Char) :=
  if i.excess = 0 then (listOperands i.operands).map fun cs => mnemonic i ++ cs else none

end Sys2Proof.Machine
end

