-- ==== Sys2Proof/WellFormed.lean ====
section
/-!
DEFINITION. Which instructions the machine's encoding can hold, and which of them are legal
(30_encoding.md R51, R54, R57, R58, R60).
-/

namespace Sys2Proof

/-- The instruction word fits a non-negative cell, so the encoding can hold it (R31, R51). -/
def Instr.encodable (i : Instr) : Bool := decide (i.wordValue < 2 ^ 63)

/-- The mode is one the operand's role allows: 0, 1, 2 to read, 0 and 2 to write (R54, R56, R57, R58). -/
def Role.allows : Role → Mode → Bool
  | .read, .absolute => true
  | .read, .immediate => true
  | .read, .relative => true
  | .read, .reserved _ => false
  | .write, .absolute => true
  | .write, .immediate => false
  | .write, .relative => true
  | .write, .reserved _ => false

/-- A legal instruction of R53 under R60's classification, excess digits ignored (R59's default). -/
def Instr.wellFormed (i : Instr) : Bool :=
  i.encodable && i.operands.all fun o => o.1.allows o.2.mode

end Sys2Proof
end

