-- ==== Sys2Proof/Safety.lean ====
section
/-!
DEFINITION. The invariant of the machine and what counts as a safe run.
-/

namespace Sys2Proof.Machine

/-- What every state from reset on satisfies: memory canonical (R11), no cell beyond MEM_MAX (R36, R160), `pc` at
most `ADDR_MAX + 4` (R13), the Halted flag and the status agreeing (R15), a fault record exactly when Faulted (R17). -/
abbrev State.Inv (s : State) : Prop :=
  s.mem.wf = true ∧ s.mem.len ≤ s.cfg.memMax.val ∧ s.pc.toNat ≤ 2 ^ 63 + 3 ∧
    (s.halted = true ↔ s.status = .halted) ∧ (s.fault.isSome = true ↔ s.status = .faulted)

/-- A run is over exactly when the status is Halted or Faulted (R119). -/
abbrev State.Over (s : State) : Prop := s.status = .halted ∨ s.status = .faulted

/-- A safe run: no instruction of it faulted. -/
abbrev State.Safe (s : State) : Prop := s.status ≠ .faulted

end Sys2Proof.Machine
end

