-- ==== Sys2Proof/Certificates/Slice0/Obligations.lean ====
section
/-!
DEFINITION. The statements for the provers, from the numbered rules of spec/. The vocabulary comes first: it is
written from the rules, not from the model's operations, so that a statement compares the two.
-/

namespace Sys2Proof.Statements

open Sys2Proof.Machine

/-- Cell `n` is the one operand `o` names in `s`: mode 0 with `P = n`, or mode 2 with the exact sum `P + rb = n`,
below MEM_MAX (R36, R56, R57, R67). For a sum in this range the spec's choice D10, exact against wrapped (log entry
12), makes no difference. -/
def NamesCell (s : State) (o : Operand) (n : Nat) : Prop :=
  n < s.cfg.memMax.val ∧
    ((o.mode = .absolute ∧ o.word.toInt = n) ∨ (o.mode = .relative ∧ o.word.toInt + s.rb.toInt = n))

/-- `v` is the value read operand `o` resolves to in `s` (R56). -/
def ReadsAs (s : State) (o : Operand) (v : Word) : Prop :=
  (o.mode = .immediate ∧ v = o.word) ∨ ∃ n, NamesCell s o n ∧ v = s.mem.read n

/-- An instruction of `n` cells with excess field `x` can be fetched at `pc` (R36, R59, R61). -/
def CanRun (s : State) (x n : Nat) : Prop :=
  s.pc.toNat + n ≤ s.cfg.memMax.val ∧ (s.cfg.excess = .ignore ∨ x = 0)

/-- One past the cell an operand touches, 0 if it touches none. -/
def topOf (rb : Word) (o : Operand) : Nat :=
  match o.mode with
  | .absolute => o.word.toInt.toNat + 1
  | .relative => (o.word.toInt + rb.toInt).toNat + 1
  | .immediate => 0
  | .reserved _ => 0

/-- `len` after an instruction of `n` cells with these operands: past every cell it touched (R34). -/
def lenAfter (s : State) (n : Nat) (os : List Operand) : Nat :=
  os.foldl (fun l o => max l (topOf s.rb o)) (max s.mem.len (s.pc.toNat + n))

/-- Every state item but memory and `pc` agrees (R10). -/
def SameItems (s u : State) : Prop :=
  u.cfg = s.cfg ∧ u.rb = s.rb ∧ u.halted = s.halted ∧ u.status = s.status ∧ u.fault = s.fault ∧
    u.inq = s.inq ∧ u.out = s.out

/-- No cell's value changed; `len` is what the touched cells make it (R34). -/
def OnlyGrew (s u : State) (n : Nat) (os : List Operand) : Prop :=
  (∀ a, u.mem.read a = s.mem.read a) ∧ u.mem.len = lenAfter s n os

/-- Cell `ad` holds `r`, no other cell's value changed, `len` is what the touched cells make it (R33, R34), and `pc`
is past the instruction's `n` cells (R13). -/
def StoredAndAdvanced (s u : State) (n ad : Nat) (r : Word) (os : List Operand) : Prop :=
  (∀ a, u.mem.read a = if a = ad then r else s.mem.read a) ∧ u.mem.len = lenAfter s n os ∧
    u.pc.toNat = s.pc.toNat + n

/-- The state after fault entry (R137): the record, the status, nothing else. -/
def faultState (s : State) (k : FaultKind) (v : Int) : State :=
  { s with
    status := .faulted
    fault := some ⟨k, s.pc, if s.pc.toNat < s.mem.len then s.mem.read s.pc.toNat else 0, v⟩ }

/-- `x` is a cell value (R4). -/
def InRange (x : Int) : Prop := intMin ≤ x ∧ x ≤ intMax

/-- `r` is `chk64(z)` (R6, R73): the exact result in range, else under `wrap` the cell value congruent to it. -/
def Checked (cfg : Config) (z : Int) (r : Word) : Prop :=
  (InRange z ∧ r.toInt = z) ∨ (¬InRange z ∧ cfg.overflow = .wrap ∧ ∃ q : Int, r.toInt = z + q * 2 ^ 64)

/-- `chk64(z)` raises ArithmeticOverflow (R6): out of range under the policy `fault`. -/
def Overflows (cfg : Config) (z : Int) : Prop := ¬InRange z ∧ cfg.overflow = .fault

/-- `w` is `wrap64(z)` (R6). -/
def WrapsTo (z w : Int) : Prop := InRange w ∧ ∃ q : Int, w = z + q * 2 ^ 64

/-- `u` is `s` after a `raise` of a fault of kind `k` (R6): no state item changed but `status` and `fault`. -/
def Raised (s u : State) (k : FaultKind) : Prop :=
  ∃ r, u = { s with status := .faulted, fault := some r } ∧ r.kind = k

/-- Instruction `i` raises no fault but of these kinds (R6, R130). -/
def RaisesOnly (i : Instr) (ks : List FaultKind) : Prop :=
  ∀ s u, s.status ≠ .faulted → exec i s = .next u → u.status = .faulted → ∃ k ∈ ks, Raised s u k

/-- The fault kinds decoding an instruction with operands can raise, its opcode being known (R71 to R90). -/
def decodeKinds : List FaultKind := [.memoryExhausted, .invalidAddressMode, .negativeAddress]

/-- The fault of an operand's address, sign first, then bound (R61, R138). -/
def addressFault (s : State) (a : Int) : Option (FaultKind × Int) :=
  if a < 0 then some (.negativeAddress, a)
  else if (s.cfg.memMax.val : Int) ≤ a then some (.memoryExhausted, a)
  else none

/-- The fault of operand `i`: its parameter fetch, its mode, its address (R56, R57, R58, R138 item 4). -/
def operandFault (s : State) (i : Nat) (r : Role) (o : Operand) : Option (FaultKind × Int) :=
  if s.cfg.memMax.val ≤ s.pc.toNat + i then some (.memoryExhausted, ((s.pc.toNat + i : Nat) : Int))
  else
    match r, o.mode with
    | _, .reserved k => some (.invalidAddressMode, 3 + (k.val : Int))
    | .write, .immediate => some (.invalidAddressMode, 1)
    | .read, .immediate => none
    | _, .absolute => addressFault s o.word.toInt
    | _, .relative => addressFault s (o.word.toInt + s.rb.toInt)

/-- The first fault of the operands from operand `i` on, each completely before the next (R138 item 4). -/
def operandsFault (s : State) : Nat → List (Role × Operand) → Option (FaultKind × Int)
  | _, [] => none
  | i, o :: os =>
    match operandFault s i o.1 o.2 with
    | some f => some f
    | none => operandsFault s (i + 1) os

/-- The fault that decoding the instruction at `pc` reports, if any (R138 items 1, 3, 4; the order is the spec's
choice D14, log entry 11). -/
def decodeFault (s : State) (i : Instr) : Option (FaultKind × Int) :=
  if s.cfg.memMax.val ≤ s.pc.toNat then some (.memoryExhausted, (s.pc.toNat : Int))
  else if s.cfg.excess = .fault ∧ i.excess ≠ 0 then some (.invalidAddressMode, (i.excess : Int))
  else operandsFault s 1 i.operands

/-- Instruction `i` faults when its decoding does, with that fault (R137, R138). -/
def DecodeFaultsTaken (i : Instr) : Prop :=
  ∀ s k v, decodeFault s i = some (k, v) → exec i s = .next (faultState s k v)

/-- The decoder's answer for the cells at `pc`. -/
def decodeAt (s : State) : Except DecodeError Instr :=
  decode (s.mem.read s.pc.toNat) (s.mem.read (s.pc.toNat + 1)) (s.mem.read (s.pc.toNat + 2))
    (s.mem.read (s.pc.toNat + 3))

/-- The machine can take a step (R16, R102). -/
def Live (s : State) : Prop := s.status = .running ∨ s.status = .awaitingInput

/-- The opcode numbers that name an instruction (R53, R60). -/
def isOpcode (n : Nat) : Prop := n = 99 ∨ (1 ≤ n ∧ n ≤ 9)

/-- What a run call in this mode returns after a step, if it stops there (R102). -/
def stopReturn (mode : RunMode) (o : StepOutcome) (s : State) : Option RunReturn :=
  match o with
  | .fault => some (.fault s.fault)
  | .suspend => some .awaitingInput
  | .halted => some .halted
  | .produced v => if mode = .nextOutput then some (.output v) else none
  | .continued => none

/-- A blank of program text (R63, `ws`). -/
def Blank (c : Char) : Prop := c = ' ' ∨ c = '\t' ∨ c = '\r' ∨ c = '\n'

/-- The value of decimal digits, the most significant first (R63). -/
def decimalValue (ds : List Char) : Nat := ds.foldl (fun n c => 10 * n + (c.toNat - '0'.toNat)) 0

/-- The token `t` is the integer `x`: blanks, a sign or none, one digit or more, blanks (R63). -/
def TokenIs (t : List Char) (x : Int) : Prop :=
  ∃ b ds c : List Char, (∀ a ∈ b, Blank a) ∧ (∀ a ∈ c, Blank a) ∧ ds ≠ [] ∧ (∀ a ∈ ds, '0' ≤ a ∧ a ≤ '9') ∧
    ((t = b ++ ds ++ c ∧ x = decimalValue ds) ∨ (t = b ++ '+' :: ds ++ c ∧ x = decimalValue ds) ∨
      (t = b ++ '-' :: ds ++ c ∧ x = -(decimalValue ds : Int)))

end Sys2Proof.Statements

open Sys2Proof Sys2Proof.Machine Sys2Proof.Statements

/-! ## Encoding -/

/-- R50, R51, R53, R54, R64: decoding the cells of an instruction gives it back, whatever follows them. Every
instruction whose word a cell can hold is covered, legal modes or not, every excess digit kept. The opcode numbers
5 to 8 are the spec's choice D1 (log entry 8). -/
def Obligations.DecodeOfEncodeIsTheInstruction : Prop :=
  ∀ (i : Instr) (q1 q2 q3 : Word), i.encodable = true →
    decode ((encode i ++ [q1, q2, q3]).getD 0 0) ((encode i ++ [q1, q2, q3]).getD 1 0)
      ((encode i ++ [q1, q2, q3]).getD 2 0) ((encode i ++ [q1, q2, q3]).getD 3 0) = .ok i

/-- R51, R54, R64: the instruction read from four cells encodes to as many of those cells as it is long. -/
def Obligations.EncodeOfDecodeIsTheCells : Prop :=
  ∀ (w p1 p2 p3 : Word) (i : Instr), decode w p1 p2 p3 = .ok i →
    encode i = [w, p1, p2, p3].take i.length ∧ i.encodable = true

/-- R50: an instruction is 1 to 4 cells, one and its operand count; `word mod 100` alone tells the length; the
parameter words are the next cells in operand order; the length is what a non-jump that completes advances by. That this
holds of Halt too is the spec's choice D19 (log entry 14). -/
def Obligations.LengthIsToldFromTheOpcodeAlone : Prop :=
  ∀ (s : State) (i : Instr), decodeAt s = .ok i →
    i.length = 1 + i.operands.length ∧ i.length ≤ 4 ∧
    (∀ k o, i.operands[k]? = some o → o.2.word = s.mem.read (s.pc.toNat + (1 + k))) ∧
    (∀ w q1 q2 q3 : Word, 0 ≤ w.toInt → w.toNat % 100 = (s.mem.read s.pc.toNat).toNat % 100 →
      ∃ j, decode w q1 q2 q3 = .ok j ∧ j.length = i.length) ∧
    ((∀ x c t, i ≠ .jumpIfTrue x c t ∧ i ≠ .jumpIfFalse x c t) → ∀ r t : State, exec i r = .next t →
      t.pc.toNat = r.pc.toNat + i.length ∨ t = { r with status := t.status, fault := t.fault })

/-- R53, R64 and the encoding vectors of 95_test_vectors.md: some words of every family decode as listed there. -/
def Obligations.ListedEncodingsDecode : Prop :=
  decode 1001 100 1 100 = .ok (.add 0 ⟨.absolute, 100⟩ ⟨.immediate, 1⟩ ⟨.absolute, 100⟩) ∧
  decode 22202 (-1) 0 1 = .ok (.multiply 0 ⟨.relative, -1⟩ ⟨.relative, 0⟩ ⟨.relative, 1⟩) ∧
  decode 203 4 0 0 = .ok (.input 0 ⟨.relative, 4⟩) ∧
  decode 104 5 0 0 = .ok (.output 0 ⟨.immediate, 5⟩) ∧
  decode 1005 31 6 0 = .ok (.jumpIfTrue 0 ⟨.absolute, 31⟩ ⟨.immediate, 6⟩) ∧
  decode 2106 0 0 0 = .ok (.jumpIfFalse 0 ⟨.immediate, 0⟩ ⟨.relative, 0⟩) ∧
  decode 7 20 21 22 = .ok (.lessThan 0 ⟨.absolute, 20⟩ ⟨.absolute, 21⟩ ⟨.absolute, 22⟩) ∧
  decode 21208 1 16 2 = .ok (.equals 0 ⟨.relative, 1⟩ ⟨.immediate, 16⟩ ⟨.relative, 2⟩) ∧
  decode 209 3 0 0 = .ok (.adjustRelativeBase 0 ⟨.relative, 3⟩) ∧
  decode 99 0 0 0 = .ok (.halt 0)

/-- R52, R60: a word is rejected exactly when it is negative or its opcode field names no instruction. That a
negative word is rejected is the spec's choice D5 (log entry 8). -/
def Obligations.DecodeRejectsExactlyTheUnknownOpcodes : Prop :=
  ∀ (w p1 p2 p3 : Word) (e : DecodeError), decode w p1 p2 p3 = .error e ↔
    (w.toInt < 0 ∧ e = .negativeWord w) ∨
      (0 ≤ w.toInt ∧ ¬isOpcode (w.toNat % 100) ∧ e = .unknownOpcode (w.toNat % 100))

/-! ## The step -/

/-- R61, R101, R102: when the cells at `pc` decode, a step of a Running machine is `exec` of the decoded instruction;
nothing else is done around it. R101 defines the step for Running only: that a step of an AwaitingInput machine is
`exec` on the machine set Running, as the first turn of the run call of R109, is the model's reading (log entry 9). -/
def Obligations.StepRunsTheDecodedInstruction : Prop :=
  ∀ (s : State) (i : Instr), Live s → s.pc.toNat < s.cfg.memMax.val → decodeAt s = .ok i →
    step s = exec i { s with status := .running }

/-- R131, R52, R60, R137: an instruction word that is negative or has no known opcode faults with `UnknownOpcode`; the
record holds the opcode, or the word itself when it is negative (D5, D12; log entries 8, 11). -/
def Obligations.UnknownWordFaults : Prop :=
  ∀ s : State, Live s → s.pc.toNat < s.cfg.memMax.val →
    ((s.mem.read s.pc.toNat).toInt < 0 → step s = .next (faultState s .unknownOpcode (s.mem.read s.pc.toNat).toInt)) ∧
    (0 ≤ (s.mem.read s.pc.toNat).toInt → ¬isOpcode ((s.mem.read s.pc.toNat).toNat % 100) →
      step s = .next (faultState s .unknownOpcode (((s.mem.read s.pc.toNat).toNat % 100 : Nat) : Int)))

/-- R36, R136, R138 item 1: a fetch at or beyond MEM_MAX faults with `MemoryExhausted(pc)`, whatever the cells read
as (D8, D12; log entries 2, 11). -/
def Obligations.FetchBeyondMemoryFaults : Prop :=
  ∀ s : State, Live s → s.cfg.memMax.val ≤ s.pc.toNat →
    step s = .next (faultState s .memoryExhausted (s.pc.toNat : Int))

/-- R45, R66, R30: cells stored at `pc` are the instruction the next step runs. -/
def Obligations.StoredInstructionIsTheOneRun : Prop :=
  ∀ (s : State) (i : Instr), s.mem.wf = true → Live s → s.pc.toNat < s.cfg.memMax.val → i.encodable = true →
    step { s with mem := s.mem.place s.pc.toNat (encode i) } =
      exec i { s with mem := s.mem.place s.pc.toNat (encode i), status := .running }

/-- R101: the step function is total; no instruction and no state stops it. R101 defines the step for Running only:
that `step` answers on an AwaitingInput machine is the model's reading (log entry 9), and on a Halted or Faulted one
its choice (log entry 10). -/
def Obligations.EveryInstructionAndStepAnswers : Prop :=
  (∀ (i : Instr) (s : State), ∃ t, exec i s = .next t) ∧ ∀ s : State, ∃ t, step s = .next t

/-! ## Faults -/

/-- R61, R138, R132, R133, R136, R137: every decode fault of every instruction is taken, the first in the order of
decode, and changes only the record and the status (order D14, entry D12; log entry 11). -/
def Obligations.DecodeFaultsAreTakenInOrder : Prop := ∀ i : Instr, DecodeFaultsTaken i

/-- R55, R56, R57, R138: the fault order leaves no case out: without a decode fault the machine fetches the instruction
and resolves every operand, read operands to their value and the write target to its cell, and `exec` then raises no
fault but those of dispatch (R138 item 6). -/
def Obligations.WithoutDecodeFaultEveryOperandResolves : Prop :=
  ∀ (s : State) (i : Instr), decodeFault s i = none →
    CanRun s i.excess i.length ∧
      (∃ t, fetchWord i.excess s = .ok t) ∧
      (∀ k o, i.operands[k]? = some o →
        (o.1 = .read → ∃ v t, readOperand (k + 1) o.2 s = .ok (v, t) ∧ ReadsAs s o.2 v) ∧
        (o.1 = .write → ∃ n t, writeOperand (k + 1) o.2 s = .ok (n, t) ∧ NamesCell s o.2 n)) ∧
      ∀ t, s.status ≠ .faulted → exec i s = .next t → t.status = .faulted →
        Raised s t .arithmeticOverflow ∨ Raised s t .negativeJumpTarget

/-- R7, R47, R108, R137: an instruction that faults or suspends changes nothing but `status` and, for a fault, the
record, which holds the `pc` and the word of the faulting instruction (D12, D20; log entry 11). -/
def Obligations.AbandonedInstructionChangesNothing : Prop :=
  ∀ (i : Instr) (s t : State), exec i s = .next t → t.status ≠ s.status →
    (t.status = .faulted → ∃ k v, t = faultState s k v) ∧
      (t.status = .awaitingInput → t = { s with status := .awaitingInput })

/-! ## The instructions -/

/-- R71: Add writes `a + b`, checked, to the target, advances `pc` by 4 and changes nothing else; out of range under
the policy `fault`, and only then, it raises ArithmeticOverflow; on any fault nothing is written. -/
def Obligations.AddStoresTheSum : Prop :=
  (∀ x a b t s va vb ad r, s.mem.wf = true → CanRun s x 4 → ReadsAs s a va → ReadsAs s b vb → NamesCell s t ad →
    Checked s.cfg (va.toInt + vb.toInt) r →
    ∃ u, exec (.add x a b t) s = .next u ∧ StoredAndAdvanced s u 4 ad r [a, b, t] ∧ SameItems s u) ∧
  (∀ x a b t s va vb ad, CanRun s x 4 → ReadsAs s a va → ReadsAs s b vb → NamesCell s t ad →
    Overflows s.cfg (va.toInt + vb.toInt) →
    ∃ u, exec (.add x a b t) s = .next u ∧ Raised s u .arithmeticOverflow) ∧
  (∀ x a b t, RaisesOnly (.add x a b t) (.arithmeticOverflow :: decodeKinds)) ∧
  ∀ x a b t s u, s.cfg.overflow = .wrap → exec (.add x a b t) s = .next u → ¬Raised s u .arithmeticOverflow

/-- R72: Multiply writes `a * b`, checked, to the target, advances `pc` by 4 and changes nothing else; out of range
under the policy `fault`, and only then, it raises ArithmeticOverflow; on any fault nothing is written. -/
def Obligations.MultiplyStoresTheProduct : Prop :=
  (∀ x a b t s va vb ad r, s.mem.wf = true → CanRun s x 4 → ReadsAs s a va → ReadsAs s b vb → NamesCell s t ad →
    Checked s.cfg (va.toInt * vb.toInt) r →
    ∃ u, exec (.multiply x a b t) s = .next u ∧ StoredAndAdvanced s u 4 ad r [a, b, t] ∧ SameItems s u) ∧
  (∀ x a b t s va vb ad, CanRun s x 4 → ReadsAs s a va → ReadsAs s b vb → NamesCell s t ad →
    Overflows s.cfg (va.toInt * vb.toInt) →
    ∃ u, exec (.multiply x a b t) s = .next u ∧ Raised s u .arithmeticOverflow) ∧
  (∀ x a b t, RaisesOnly (.multiply x a b t) (.arithmeticOverflow :: decodeKinds)) ∧
  ∀ x a b t s u, s.cfg.overflow = .wrap → exec (.multiply x a b t) s = .next u → ¬Raised s u .arithmeticOverflow

/-- R85: LessThan writes exactly 1 or 0 by the signed comparison of its two values, advances `pc` by 4 and changes
nothing else; it raises no fault but those of decode, and then writes nothing. -/
def Obligations.LessThanStoresOneOrZero : Prop :=
  (∀ x a b t s va vb ad, s.mem.wf = true → CanRun s x 4 → ReadsAs s a va → ReadsAs s b vb → NamesCell s t ad →
    ∃ u, exec (.lessThan x a b t) s = .next u ∧
      StoredAndAdvanced s u 4 ad (if va.toInt < vb.toInt then 1 else 0) [a, b, t] ∧ SameItems s u) ∧
  ∀ x a b t, RaisesOnly (.lessThan x a b t) decodeKinds

/-- R86: Equals writes exactly 1 or 0 by the equality of its two values, advances `pc` by 4 and changes nothing
else; it raises no fault but those of decode, and then writes nothing. -/
def Obligations.EqualsStoresOneOrZero : Prop :=
  (∀ x a b t s va vb ad, s.mem.wf = true → CanRun s x 4 → ReadsAs s a va → ReadsAs s b vb → NamesCell s t ad →
    ∃ u, exec (.equals x a b t) s = .next u ∧
      StoredAndAdvanced s u 4 ad (if va.toInt = vb.toInt then 1 else 0) [a, b, t] ∧ SameItems s u) ∧
  ∀ x a b t, RaisesOnly (.equals x a b t) decodeKinds

/-- R75, R108: Input removes the front of the queue, writes it to the target and advances `pc` by 2; with an empty
queue it suspends and changes only the status; a decode fault is taken first, whatever the queue holds. -/
def Obligations.InputTakesTheFrontOrSuspends : Prop :=
  (∀ x t s ad v rest, s.mem.wf = true → CanRun s x 2 → NamesCell s t ad → s.inq = v :: rest →
    ∃ u, exec (.input x t) s = .next u ∧ StoredAndAdvanced s u 2 ad v [t] ∧ SameItems { s with inq := rest } u) ∧
  (∀ x t s ad, CanRun s x 2 → NamesCell s t ad → s.inq = [] →
    exec (.input x t) s = .next { s with status := .awaitingInput }) ∧
  ∀ x t, DecodeFaultsTaken (.input x t)

/-- R76: Output appends the operand's value to `out`, advances `pc` by 2 and changes nothing else; the value the
controller is told is the one appended; it raises no fault but those of decode. -/
def Obligations.OutputAppendsTheValue : Prop :=
  (∀ x a s v, CanRun s x 2 → ReadsAs s a v →
    ∃ u, exec (.output x a) s = .next u ∧ OnlyGrew s u 2 [a] ∧ u.pc.toNat = s.pc.toNat + 2 ∧
      SameItems { s with out := s.out ++ [v] } u ∧ (s.status = .running → stepOutcome s u = .produced v)) ∧
  ∀ x a, RaisesOnly (.output x a) decodeKinds

/-- R80, R82: JumpIfTrue goes to the target's value when the condition's value is not 0, else advances `pc` by 3;
memory only grows by the operand reads. A taken jump to a negative target faults: the spec's choice D11 (log entry
13). Decode faults come first, in R138's order and with R137's record (D12, D14; log entry 11). -/
def Obligations.JumpIfTrueGoesToTheTarget : Prop :=
  (∀ x c t s vc vt, CanRun s x 3 → ReadsAs s c vc → ReadsAs s t vt → vc.toInt ≠ 0 → 0 ≤ vt.toInt →
    ∃ u, exec (.jumpIfTrue x c t) s = .next u ∧ OnlyGrew s u 3 [c, t] ∧ (u.pc.toNat : Int) = vt.toInt ∧
      SameItems s u) ∧
  (∀ x c t s vc vt, CanRun s x 3 → ReadsAs s c vc → ReadsAs s t vt → vc.toInt = 0 →
    ∃ u, exec (.jumpIfTrue x c t) s = .next u ∧ OnlyGrew s u 3 [c, t] ∧ u.pc.toNat = s.pc.toNat + 3 ∧
      SameItems s u) ∧
  (∀ x c t s vc vt, CanRun s x 3 → ReadsAs s c vc → ReadsAs s t vt → vc.toInt ≠ 0 → vt.toInt < 0 →
    exec (.jumpIfTrue x c t) s = .next (faultState s .negativeJumpTarget vt.toInt)) ∧
  ∀ x c t, DecodeFaultsTaken (.jumpIfTrue x c t)

/-- R81, R82: JumpIfFalse goes to the target's value when the condition's value is 0, else advances `pc` by 3;
memory only grows by the operand reads. A taken jump to a negative target faults: the spec's choice D11 (log entry
13). Decode faults come first, in R138's order and with R137's record (D12, D14; log entry 11). -/
def Obligations.JumpIfFalseGoesToTheTarget : Prop :=
  (∀ x c t s vc vt, CanRun s x 3 → ReadsAs s c vc → ReadsAs s t vt → vc.toInt = 0 → 0 ≤ vt.toInt →
    ∃ u, exec (.jumpIfFalse x c t) s = .next u ∧ OnlyGrew s u 3 [c, t] ∧ (u.pc.toNat : Int) = vt.toInt ∧
      SameItems s u) ∧
  (∀ x c t s vc vt, CanRun s x 3 → ReadsAs s c vc → ReadsAs s t vt → vc.toInt ≠ 0 →
    ∃ u, exec (.jumpIfFalse x c t) s = .next u ∧ OnlyGrew s u 3 [c, t] ∧ u.pc.toNat = s.pc.toNat + 3 ∧
      SameItems s u) ∧
  (∀ x c t s vc vt, CanRun s x 3 → ReadsAs s c vc → ReadsAs s t vt → vc.toInt = 0 → vt.toInt < 0 →
    exec (.jumpIfFalse x c t) s = .next (faultState s .negativeJumpTarget vt.toInt)) ∧
  ∀ x c t, DecodeFaultsTaken (.jumpIfFalse x c t)

/-- R90: AdjustRelativeBase adds its value, read with the old `rb`, to `rb`, checked, advances `pc` by 2 and changes
nothing else; out of range under the policy `fault`, and only then, it raises ArithmeticOverflow. -/
def Obligations.AdjustRelativeBaseAddsToTheBase : Prop :=
  (∀ x a s v r, CanRun s x 2 → ReadsAs s a v → Checked s.cfg (s.rb.toInt + v.toInt) r →
    ∃ u, exec (.adjustRelativeBase x a) s = .next u ∧ OnlyGrew s u 2 [a] ∧ u.pc.toNat = s.pc.toNat + 2 ∧
      SameItems { s with rb := r } u) ∧
  (∀ x a s v, CanRun s x 2 → ReadsAs s a v → Overflows s.cfg (s.rb.toInt + v.toInt) →
    ∃ u, exec (.adjustRelativeBase x a) s = .next u ∧ Raised s u .arithmeticOverflow) ∧
  (∀ x a, RaisesOnly (.adjustRelativeBase x a) (.arithmeticOverflow :: decodeKinds)) ∧
  ∀ x a s u, s.cfg.overflow = .wrap → exec (.adjustRelativeBase x a) s = .next u → ¬Raised s u .arithmeticOverflow

/-- R91, R59: Halt sets the flag and the status and changes nothing else but `pc`, which moves to the next cell (the
spec's choice D19, log entry 14); only decode can fault, in R138's order and with R137's record (D12, D14; log entry
11). -/
def Obligations.HaltSetsTheFlag : Prop :=
  (∀ x s, CanRun s x 1 →
    ∃ u, exec (.halt x) s = .next u ∧ OnlyGrew s u 1 [] ∧ u.pc.toNat = s.pc.toNat + 1 ∧
      SameItems { s with halted := true, status := .halted } u) ∧
  ∀ x, DecodeFaultsTaken (.halt x)

/-- R73, R135, R137: the record of an ArithmeticOverflow holds `wrap64` of the exact result, and the `pc` and word
of the instruction (D4, D12; log entries 2, 11). -/
def Obligations.OverflowRecordsTheWrappedResult : Prop :=
  (∀ x a b t s va vb ad w, CanRun s x 4 → ReadsAs s a va → ReadsAs s b vb → NamesCell s t ad →
    (Overflows s.cfg (va.toInt + vb.toInt) → WrapsTo (va.toInt + vb.toInt) w →
      exec (.add x a b t) s = .next (faultState s .arithmeticOverflow w)) ∧
    (Overflows s.cfg (va.toInt * vb.toInt) → WrapsTo (va.toInt * vb.toInt) w →
      exec (.multiply x a b t) s = .next (faultState s .arithmeticOverflow w))) ∧
  ∀ x a s v w, CanRun s x 2 → ReadsAs s a v → Overflows s.cfg (s.rb.toInt + v.toInt) →
    WrapsTo (s.rb.toInt + v.toInt) w →
    exec (.adjustRelativeBase x a) s = .next (faultState s .arithmeticOverflow w)

/-! ## What instructions leave alone -/

/-- R33, R67: every cell but the one the instruction's write target names reads as before, for every instruction. -/
def Obligations.OnlyTheNamedTargetCellChanges : Prop :=
  ∀ (i : Instr) (s t : State), s.mem.wf = true → exec i s = .next t →
    ∀ a, (∀ o ∈ i.operands, o.1 = .write → ¬NamesCell s o.2 a) → t.mem.read a = s.mem.read a

/-- R13, R82 item 1: only the jumps set `pc` to anything but the next instruction; an instruction that faults or
suspends leaves it; no advance wraps (`pc` has 64 bits: D25, log entry 7). That Halt too moves `pc` to the next cell is
the spec's choice D19 (log entry 14). -/
def Obligations.OnlyJumpsRedirectThePc : Prop :=
  ∀ (i : Instr) (s t : State), exec i s = .next t →
    t.pc.toNat = s.pc.toNat + i.length ∨
      (t.pc = s.pc ∧ (t.status = .faulted ∨ t.status = .awaitingInput)) ∨
      ∃ x c g, (i = .jumpIfTrue x c g ∨ i = .jumpIfFalse x c g) ∧ ReadsAs s g t.pc ∧ 0 ≤ t.pc.toInt

/-- R14: the relative base is 0 at reset, and only AdjustRelativeBase changes it: no other instruction, and no
transaction of the host. -/
def Obligations.OnlyAdjustRelativeBaseWritesRb : Prop :=
  State.reset.rb = 0 ∧
  (∀ (i : Instr) (s t : State), exec i s = .next t → (∀ x a, i ≠ .adjustRelativeBase x a) → t.rb = s.rb) ∧
  (∀ (vs : List Word) (s : State), (setInput vs s).rb = s.rb) ∧
  ∀ cfg program s, newMachine cfg program = .ok s → s.rb = 0

/-- R18: the input queue is empty at reset; the host appends at the back; Input alone removes, one element from the
front; nothing else sees what it holds, and Input sees only the front. -/
def Obligations.InputQueueIsFirstInFirstOut : Prop :=
  State.reset.inq = [] ∧
  (∀ (vs : List Word) (s : State), (setInput vs s).inq = s.inq ++ vs) ∧
  (∀ (i : Instr) (s t : State), exec i s = .next t →
    t.inq = s.inq ∨ ∃ x o v, i = .input x o ∧ s.inq = v :: t.inq) ∧
  (∀ (i : Instr) (s t : State) (q : List Word), exec i s = .next t → (∀ x o, i ≠ .input x o) →
    exec i { s with inq := q } = .next { t with inq := q }) ∧
  ∀ (x : Nat) (o : Operand) (s t : State) (v : Word) (rest q : List Word), s.inq = v :: rest →
    exec (.input x o) s = .next t → t.status ≠ .faulted →
    exec (.input x o) { s with inq := v :: q } = .next { t with inq := q }

/-- R19: the output sequence is empty at reset; Output alone appends to it, one element; no instruction reads it; no
transaction removes or reorders an element, and the host sees the whole of it. -/
def Obligations.OutputSequenceOnlyGrows : Prop :=
  State.reset.out = [] ∧
  (∀ (i : Instr) (s t : State), exec i s = .next t →
    t.out = s.out ∨ ∃ x a v, i = .output x a ∧ ReadsAs s a v ∧ t.out = s.out ++ [v]) ∧
  (∀ (i : Instr) (s t : State) (o : List Word), exec i s = .next t →
    exec i { s with out := o } = .next { t with out := o ++ t.out.drop s.out.length }) ∧
  (∀ fuel tr s r s', transact fuel tr s = some (r, s') → ∃ o, s'.out = s.out ++ o) ∧
  ∀ fuel s, transact fuel .inspectOutput s = some (.outputs s.out, s)

/-- R15, R16, R91: the flag is false at reset, only a Halt at `pc` sets it, nothing clears it, and a halted machine
that meets the invariant runs nothing; that its step answers the same state is the model's choice (log entry 10). -/
def Obligations.HaltedFlagIsSetOnceByHalt : Prop :=
  State.reset.halted = false ∧
  (∀ s t : State, step s = .next t → s.halted = true → t.halted = true) ∧
  (∀ s t : State, step s = .next t → s.halted = false → t.halted = true →
    t.status = .halted ∧ ∃ x, decodeAt s = .ok (.halt x)) ∧
  ∀ s : State, s.Inv → s.halted = true → step s = .next s

/-- R32, R33: a read gives the cell's value, 0 if it does not exist, and only grows memory up to the address; a write
does the same and replaces the cell; both raise MemoryExhausted at or beyond MEM_MAX. The dump is no read. -/
def Obligations.ReadsGrowAndWritesStore : Prop :=
  ∀ (a : Nat) (v : Word) (s : State), s.mem.wf = true →
    (a < s.cfg.memMax.val →
      (∃ t, memRead a s = .ok (if a < s.mem.len then s.mem.read a else 0, t) ∧ t = { s with mem := t.mem } ∧
        t.mem.len = (if s.mem.len ≤ a then a + 1 else s.mem.len) ∧ ∀ b, t.mem.read b = s.mem.read b) ∧
      ∃ t, memWrite a v s = .ok t ∧ t = { s with mem := t.mem } ∧
        t.mem.len = (if s.mem.len ≤ a then a + 1 else s.mem.len) ∧
        ∀ b, t.mem.read b = if b = a then v else s.mem.read b) ∧
    (s.cfg.memMax.val ≤ a → memRead a s = .error (.fault .memoryExhausted a) ∧
      memWrite a v s = .error (.fault .memoryExhausted a)) ∧
    ∀ fuel d t, transact fuel .dumpMemory s = some (d, t) → t = s

/-- R34 items 1 to 3: memory never shrinks; after an access at `a` there are at least `a + 1` cells; a value written
survives growth by any later read. -/
def Obligations.GrowthPreservesData : Prop :=
  (∀ (i : Instr) (s t : State), exec i s = .next t → s.mem.len ≤ t.mem.len) ∧
  ∀ (a a2 : Nat) (v u : Word) (s s1 s2 : State), s.mem.wf = true → memWrite a v s = .ok s1 →
    memRead a2 s1 = .ok (u, s2) → a < a2 →
    a + 1 ≤ s1.mem.len ∧ a2 + 1 ≤ s2.mem.len ∧ memRead a s2 = .ok (v, s2)

/-! ## Reset and invariants -/

/-- R23, R161: the reset state, for the empty program. That `fault` is none is the spec's own item (D12, log entry
11); the parameters are the defaults of R4 (log entry 2). -/
def Obligations.ResetValues : Prop :=
  State.reset.mem.len = 0 ∧ (∀ a, State.reset.mem.read a = 0) ∧ State.reset.pc = 0 ∧ State.reset.rb = 0 ∧
    State.reset.halted = false ∧ State.reset.status = .running ∧ State.reset.fault = none ∧
    State.reset.inq = [] ∧ State.reset.out = [] ∧
    newMachine Config.standard [] = .ok State.reset

/-- R115, R160, R40: `new(program)` makes a machine whose cells 0 to n-1 are the program, every other address zero,
the rest at reset values; it is refused exactly when the program is longer than MEM_MAX (D8, log entry 2). -/
def Obligations.NewMachineHoldsTheProgram : Prop :=
  ∀ (cfg : Config) (program : List Word),
    (program.length ≤ cfg.memMax.val → ∃ s, newMachine cfg program = .ok s ∧ s.Inv ∧ s.cfg = cfg ∧
      s.mem.len = program.length ∧ (∀ a, s.mem.read a = program.getD a 0) ∧ s.pc = 0 ∧ s.rb = 0 ∧
      s.halted = false ∧ s.status = .running ∧ s.fault = none ∧ s.inq = [] ∧ s.out = []) ∧
    (cfg.memMax.val < program.length → newMachine cfg program = .error .programTooLong)

/-- R11, R13, R15, R17, R36: the reset state meets the invariant. -/
def Obligations.ResetMeetsTheInvariant : Prop := State.reset.Inv

/-- R11, R13, R15, R17, R36: every step keeps the invariant: memory canonical and within MEM_MAX, `pc` at most
2^63 + 3, the Halted flag and the status agreeing, a fault record exactly when Faulted. -/
def Obligations.StepKeepsTheInvariant : Prop :=
  ∀ s t : State, s.Inv → step s = .next t → t.Inv

/-- R118, R121: whatever transactions the host makes, every machine it has meets the invariant. -/
def Obligations.HostCallsKeepTheInvariant : Prop :=
  ∀ (fuel : Nat) (c : FleetCall) (f g : List State) (r : FleetResponse), (∀ s ∈ f, s.Inv) →
    fleetCall fuel c f = some (r, g) → ∀ s ∈ g, s.Inv

/-- R11, R19, R107, R110, R111, R121: over any host call each machine keeps its parameters, its cells and its outputs,
a halted one stays halted, and in a halted or faulted one only the input queue can change. -/
def Obligations.HistoryIsNeverUndone : Prop :=
  ∀ (fuel : Nat) (c : FleetCall) (f g : List State) (r : FleetResponse), fleetCall fuel c f = some (r, g) →
    ∀ (k : Nat) (s : State), f[k]? = some s → ∃ t, g[k]? = some t ∧ t.cfg = s.cfg ∧ s.mem.len ≤ t.mem.len ∧
      (∃ o, t.out = s.out ++ o) ∧ (s.halted = true → t.halted = true) ∧
      (s.Over → t = { s with inq := t.inq })

/-! ## The run-mode controller and the host -/

/-- R110: every run call on a halted machine reports `AlreadyHalted`, decodes nothing and changes nothing; a call for
no output at all reports Complete (the spec's choice D18, log entry 15). -/
def Obligations.HaltedMachineReportsAlreadyHalted : Prop :=
  ∀ s : State, s.status = .halted →
    (∀ mode fuel, run mode fuel s = some (.alreadyHalted, s)) ∧
      (∀ fuel n, runNextOutputN fuel (n + 1) s = some ([], .ended .alreadyHalted, s)) ∧
      ∀ fuel, runNextOutputN fuel 0 s = some ([], .complete, s)

/-- R111 (the spec's choice D12, log entry 11): every run call on a faulted machine returns its record and changes
nothing; and a step of a halted or faulted machine changes nothing (log entry 10). -/
def Obligations.FaultedMachineReportsItsRecord : Prop :=
  (∀ s : State, s.status = .faulted →
    (∀ mode fuel, run mode fuel s = some (.fault s.fault, s)) ∧
      ∀ fuel n, runNextOutputN fuel (n + 1) s = some ([], .ended (.fault s.fault), s)) ∧
  ∀ s : State, s.Over → step s = .next s

/-- R107, R75: a machine becomes AwaitingInput only at an Input with the queue empty, and the step changes nothing
but the status. -/
def Obligations.AwaitingInputOnlyAtAnEmptyInput : Prop :=
  ∀ s t : State, step s = .next t → t.status = .awaitingInput →
    Live s ∧ s.inq = [] ∧ (∃ x o, decodeAt s = .ok (.input x o)) ∧ t = { s with status := .awaitingInput }

/-- R102: a run call on a Running or AwaitingInput machine is a sequence of steps from the machine set Running, up to
the first whose outcome stops this mode, and returns that outcome; a Halted or Faulted machine runs nothing. -/
def Obligations.RunCallEndsAtTheFirstStop : Prop :=
  (∀ mode fuel s, s.status = .halted → run mode fuel s = some (.alreadyHalted, s)) ∧
  (∀ mode fuel s, s.status = .faulted → run mode fuel s = some (.fault s.fault, s)) ∧
  ∀ (mode : RunMode) (fuel : Nat) (s : State) (r : RunReturn) (s' : State), Live s →
    (run mode fuel s = some (r, s') ↔
      ∃ k sk, k < fuel ∧ core.run k { s with status := .running } = .next sk ∧ step sk = .next s' ∧
        stopReturn mode (stepOutcome sk s') s' = some r ∧
        ∀ j < k, ∃ a b, core.run j { s with status := .running } = .next a ∧ step a = .next b ∧
          stopReturn mode (stepOutcome a b) b = none)

/-- R117, R120: more fuel never changes an answer: fuel is no part of the machine. -/
def Obligations.FuelDoesNotChangeTheAnswer : Prop :=
  ∀ (fuel more : Nat) (t : Transaction) (s : State) (r : Response) (s' : State),
    transact fuel t s = some (r, s') → transact (fuel + more) t s = some (r, s')

/-- R104: the loop of `run_to_next_input_needed` is that of `run_to_halt`; its answers are AwaitingInput, Halted, a
fault or AlreadyHalted, never an output. -/
def Obligations.RunToInputIsRunToHalt : Prop :=
  ∀ (fuel : Nat) (s : State), run .toInput fuel s = run .toHalt fuel s ∧
    ∀ r s', run .toInput fuel s = some (r, s') → ∀ v, r ≠ .output v

/-- R108, R109, R106: suspension is stable: after a call returned AwaitingInput, every run call without new input
returns AwaitingInput again and changes nothing. That every run mode suspends there, and that
`run_to_next_output_n` ends there and says so, are the spec's choices D15 and D18 (log entry 15). -/
def Obligations.SuspensionIsStable : Prop :=
  ∀ (mode : RunMode) (fuel : Nat) (s s' : State), run mode fuel s = some (.awaitingInput, s') →
    s'.status = .awaitingInput ∧ s'.inq = [] ∧
    (∀ mode' fuel', run mode' (fuel' + 1) s' = some (.awaitingInput, s')) ∧
    ∀ fuel' n, runNextOutputN (fuel' + 1) (n + 1) s' = some ([], .ended .awaitingInput, s')

/-- R105: `run_to_next_output` returns the one value appended in this call, with the machine Running; any other
return comes with no new output (D15 for AwaitingInput, log entry 15). -/
def Obligations.NextOutputReturnsTheFreshValue : Prop :=
  ∀ (fuel : Nat) (s : State) (r : RunReturn) (s' : State), run .nextOutput fuel s = some (r, s') →
    (∀ v, r = .output v → s'.out = s.out ++ [v] ∧ s'.status = .running) ∧
      ((∀ v, r ≠ .output v) → s'.out = s.out)

/-- R106 (the spec's choice D18, log entry 15): `run_to_next_output_n(n)` collects the values appended, at most n of
them, and reports Complete exactly when there are n. -/
def Obligations.NextOutputNCollectsTheOutputs : Prop :=
  ∀ (fuel n : Nat) (s : State) (vs : List Word) (why : EndReason) (s' : State),
    runNextOutputN fuel n s = some (vs, why, s') →
    s'.out = s.out ++ vs ∧ vs.length ≤ n ∧ (why = .complete ↔ vs.length = n) ∧
      ∀ v, why ≠ .ended (.output v)

/-- R112, R113, R114 (D16, D17, D27; log entry 15): `set_input` appends and changes nothing else, in every status;
inspecting the output and dumping memory change nothing; the dump lists the cells that exist in address order. -/
def Obligations.FeedAndInspectionDoOnlyThat : Prop :=
  ∀ (fuel : Nat) (s : State),
    (∀ vs, transact fuel (.setInput vs) s = some (.done, { s with inq := s.inq ++ vs })) ∧
    transact fuel .inspectOutput s = some (.outputs s.out, s) ∧
    ∃ d, transact fuel .dumpMemory s = some (.dump d, s) ∧ d.length = s.mem.len ∧
      ∀ a, a < s.mem.len → d[a]? = some (a, s.mem.read a)

/-- R120: how the input is split does not matter. Input fed before a run call that does not need it stays in the
queue; a call that ends for want of input, a feed and a second call end as one call with the input fed first. That `set_input`
appends is the spec's choice D16 (log entry 15). -/
def Obligations.InputMayBeSplitAnyhow : Prop :=
  ∀ (mode : RunMode) (fuel : Nat) (s : State) (vs : List Word),
    (∀ r s', run mode fuel s = some (r, s') → r ≠ .awaitingInput →
      run mode fuel (setInput vs s) = some (r, setInput vs s')) ∧
    ∀ more s1 r s2, run mode fuel s = some (.awaitingInput, s1) → run mode more (setInput vs s1) = some (r, s2) →
      run mode (fuel + more) (setInput vs s) = some (r, s2)

/-- R116 (D28, log entry 15): a clone is a further machine equal to the original, and the others are untouched. -/
def Obligations.CloneIsAnEqualFurtherMachine : Prop :=
  ∀ (fuel k : Nat) (f : List State) (s : State), f[k]? = some s →
    ∃ g, fleetCall fuel (.clone k) f = some (.created f.length, g) ∧ g[f.length]? = some s ∧
      g.length = f.length + 1 ∧ ∀ j, j < f.length → g[j]? = f[j]?

/-- R116, R146: machines share nothing: a call on one leaves every other as it was, and calls on two machines give
the same answers and machines in either order. -/
def Obligations.MachinesShareNothing : Prop :=
  (∀ (fuel k : Nat) (t : Transaction) (f g : List State) (r : FleetResponse),
    fleetCall fuel (.on k t) f = some (r, g) → ∀ j, j ≠ k → g[j]? = f[j]?) ∧
  ∀ (fuel j k : Nat) (t u : Transaction) (f f1 f2 : List State) (r1 r2 : FleetResponse), j ≠ k →
    fleetCall fuel (.on j t) f = some (r1, f1) → fleetCall fuel (.on k u) f1 = some (r2, f2) →
    ∃ g, fleetCall fuel (.on k u) f = some (r2, g) ∧ fleetCall fuel (.on j t) g = some (r1, f2)

/-- R63: the canonical text of a non-empty program parses back to its cells, so serializing again gives the same
text. -/
def Obligations.ProgramTextRoundTrips : Prop :=
  ∀ ws : List Word, ws ≠ [] → parseProgram (serializeProgram ws) = .ok ws

/-- R63 (D23, log entry 16), R141: a text whose tokens are integers in range is those cells, whatever signs, leading
zeros and blanks it has; a text with a token that is none is a ParseError, wherever the token stands: an empty one, one
that is no integer, one above INT_MAX or below INT_MIN. -/
def Obligations.ProgramTextRefusals : Prop :=
  (∀ ts : List (List Char × Word), ts ≠ [] → (∀ t ∈ ts, TokenIs t.1 t.2.toInt) →
    parseProgram (List.intercalate [','] (ts.map Prod.fst)) = .ok (ts.map Prod.snd)) ∧
  (∀ ts : List (List Char), (∀ t ∈ ts, ',' ∉ t) → (∃ t ∈ ts, ∀ x, InRange x → ¬TokenIs t x) →
    parseProgram (List.intercalate [','] ts) = .error .parseError) ∧
  (∀ (b c : List Char) (w : Word), (∀ x ∈ b, Blank x) → (∀ x ∈ c, Blank x) →
    parseProgram (b ++ showWord w ++ c) = .ok [w]) ∧
  parseProgram [] = .error .parseError ∧
  (∀ ws : List Char, parseProgram (ws ++ [',']) = .error .parseError) ∧
  (∀ cs : List Char, parseProgram (',' :: cs) = .error .parseError) ∧
  (∀ ws cs : List Char, parseProgram (ws ++ ',' :: ',' :: cs) = .error .parseError) ∧
  (∀ n : Nat, 2 ^ 63 ≤ n → parseProgram (showNat n) = .error .parseError) ∧
  ∀ n : Nat, 2 ^ 63 < n → parseProgram ('-' :: showNat n) = .error .parseError
end

