-- ==== Sys2Proof/Laws/State.lean ====
section
/-!
SUPPORT. What each named update of the state does to each field (10_state.md R10).
-/

namespace Sys2Proof.Machine

section TakeFault
variable (k : FaultKind) (v : Int) (s : State)
@[simp] theorem takeFault_cfg : (takeFault k v s).cfg = s.cfg := rfl
@[simp] theorem takeFault_mem : (takeFault k v s).mem = s.mem := rfl
@[simp] theorem takeFault_pc : (takeFault k v s).pc = s.pc := rfl
@[simp] theorem takeFault_rb : (takeFault k v s).rb = s.rb := rfl
@[simp] theorem takeFault_halted : (takeFault k v s).halted = s.halted := rfl
@[simp] theorem takeFault_status : (takeFault k v s).status = .faulted := rfl
@[simp] theorem takeFault_fault : (takeFault k v s).fault = some ⟨k, s.pc, faultWord s, v⟩ := rfl
@[simp] theorem takeFault_inq : (takeFault k v s).inq = s.inq := rfl
@[simp] theorem takeFault_out : (takeFault k v s).out = s.out := rfl
end TakeFault

section Suspend
variable (s : State)
@[simp] theorem suspend_cfg : (suspend s).cfg = s.cfg := rfl
@[simp] theorem suspend_mem : (suspend s).mem = s.mem := rfl
@[simp] theorem suspend_pc : (suspend s).pc = s.pc := rfl
@[simp] theorem suspend_rb : (suspend s).rb = s.rb := rfl
@[simp] theorem suspend_halted : (suspend s).halted = s.halted := rfl
@[simp] theorem suspend_status : (suspend s).status = .awaitingInput := rfl
@[simp] theorem suspend_fault : (suspend s).fault = s.fault := rfl
@[simp] theorem suspend_inq : (suspend s).inq = s.inq := rfl
@[simp] theorem suspend_out : (suspend s).out = s.out := rfl
end Suspend

section Advance
variable (n : Nat) (s : State)
@[simp] theorem advance_cfg : (advance n s).cfg = s.cfg := rfl
@[simp] theorem advance_mem : (advance n s).mem = s.mem := rfl
@[simp] theorem advance_pc : (advance n s).pc = s.pc + BitVec.ofNat 64 n := rfl
@[simp] theorem advance_rb : (advance n s).rb = s.rb := rfl
@[simp] theorem advance_halted : (advance n s).halted = s.halted := rfl
@[simp] theorem advance_status : (advance n s).status = s.status := rfl
@[simp] theorem advance_fault : (advance n s).fault = s.fault := rfl
@[simp] theorem advance_inq : (advance n s).inq = s.inq := rfl
@[simp] theorem advance_out : (advance n s).out = s.out := rfl
end Advance

section SetInput
variable (vs : List Word) (s : State)
@[simp] theorem setInput_cfg : (setInput vs s).cfg = s.cfg := rfl
@[simp] theorem setInput_mem : (setInput vs s).mem = s.mem := rfl
@[simp] theorem setInput_pc : (setInput vs s).pc = s.pc := rfl
@[simp] theorem setInput_rb : (setInput vs s).rb = s.rb := rfl
@[simp] theorem setInput_halted : (setInput vs s).halted = s.halted := rfl
@[simp] theorem setInput_status : (setInput vs s).status = s.status := rfl
@[simp] theorem setInput_fault : (setInput vs s).fault = s.fault := rfl
@[simp] theorem setInput_inq : (setInput vs s).inq = s.inq ++ vs := rfl
@[simp] theorem setInput_out : (setInput vs s).out = s.out := rfl
end SetInput

section Memory
variable (m : Memory) (a x : Nat) (v : Word)
@[simp] theorem grow_cells : (m.grow a).cells = m.cells := rfl
@[simp] theorem grow_len : (m.grow a).len = max m.len (a + 1) := rfl
@[simp] theorem grow_read : (m.grow a).read x = m.read x := rfl
@[simp] theorem write_cells : (m.write a v).cells = writeCells m.cells a v := rfl
@[simp] theorem write_len : (m.write a v).len = max m.len (a + 1) := rfl
end Memory

end Sys2Proof.Machine
end

