-- ==== Sys2Proof/Laws/Memory.lean ====
section
/-!
SUPPORT. Memory: its canonical form, which every operation keeps, and reading after writing
(20_memory.md R32 to R34).
-/

namespace Sys2Proof.Machine

theorem cellsOrdered_cons (a : Nat) (v : Word) (rest : List (Nat × Word)) (lo hi : Nat) :
    cellsOrdered ((a, v) :: rest) lo hi = true ↔
      (lo ≤ a ∧ a < hi ∧ v ≠ 0) ∧ cellsOrdered rest (a + 1) hi = true := by
  simp [cellsOrdered]

theorem cellsOrdered_mono {l : List (Nat × Word)} {lo lo' hi hi' : Nat} (h : cellsOrdered l lo hi = true)
    (hlo : lo' ≤ lo) (hhi : hi ≤ hi') : cellsOrdered l lo' hi' = true := by
  induction l generalizing lo lo' with
  | nil => rfl
  | cons c rest ih =>
    obtain ⟨a, v⟩ := c
    rw [cellsOrdered_cons] at h ⊢
    exact ⟨⟨by omega, by omega, h.1.2.2⟩, ih h.2 le_rfl⟩

/-- Below the first listed address every address reads 0. -/
theorem readCells_of_lt {l : List (Nat × Word)} {lo hi x : Nat} (h : cellsOrdered l lo hi = true) (hx : x < lo) :
    readCells l x = 0 := by
  induction l generalizing lo with
  | nil => rfl
  | cons c rest ih =>
    obtain ⟨a, v⟩ := c
    rw [cellsOrdered_cons] at h
    rw [readCells, if_neg (by omega)]
    exact ih h.2 (by omega)

/-- From the length on every address reads 0. -/
theorem readCells_of_ge {l : List (Nat × Word)} {lo hi x : Nat} (h : cellsOrdered l lo hi = true) (hx : hi ≤ x) :
    readCells l x = 0 := by
  induction l generalizing lo with
  | nil => rfl
  | cons c rest ih =>
    obtain ⟨a, v⟩ := c
    rw [cellsOrdered_cons] at h
    rw [readCells, if_neg (by omega)]
    exact ih h.2

theorem readCells_cons (b : Nat) (w : Word) (rest : List (Nat × Word)) (x : Nat) :
    readCells ((b, w) :: rest) x = if b = x then w else readCells rest x := rfl

theorem readCells_writeCells {l : List (Nat × Word)} {lo hi : Nat} (h : cellsOrdered l lo hi = true)
    (a x : Nat) (v : Word) : readCells (writeCells l a v) x = if x = a then v else readCells l x := by
  induction l generalizing lo with
  | nil =>
    by_cases hx : x = a
    · subst hx
      unfold writeCells
      rw [if_pos rfl]
      split_ifs with hv
      · exact hv.symm
      · rw [readCells_cons, if_pos rfl]
    · unfold writeCells
      rw [if_neg hx]
      split_ifs with hv
      · rfl
      · rw [readCells_cons, if_neg (Ne.symm hx)]
  | cons c rest ih =>
    obtain ⟨b, w⟩ := c
    rw [cellsOrdered_cons] at h
    have below : ∀ y, y ≤ b → readCells rest y = 0 := fun y hy => readCells_of_lt h.2 (by omega)
    by_cases hx : x = a
    · subst hx
      unfold writeCells
      rw [if_pos rfl]
      split_ifs with h1 h2 h3 h4
      · rw [readCells_cons, if_neg (by omega), below _ (by omega), h2]
      · rw [readCells_cons, if_pos rfl]
      · rw [below _ (by omega), h4]
      · rw [readCells_cons, if_pos rfl]
      · rw [readCells_cons, if_neg (Ne.symm h3), ih h.2, if_pos rfl]
    · unfold writeCells
      rw [if_neg hx]
      split_ifs with h1 h2 h3 h4
      · rfl
      · rw [readCells_cons, if_neg (Ne.symm hx)]
      · rw [readCells_cons, if_neg (by omega)]
      · rw [readCells_cons, if_neg (Ne.symm hx), readCells_cons, if_neg (by omega)]
      · rw [readCells_cons, readCells_cons, ih h.2, if_neg hx]

theorem writeCells_ordered {l : List (Nat × Word)} {lo hi a : Nat} (v : Word) (h : cellsOrdered l lo hi = true)
    (ha : lo ≤ a) (hhi : a < hi) : cellsOrdered (writeCells l a v) lo hi = true := by
  induction l generalizing lo with
  | nil =>
    unfold writeCells
    split_ifs with hv
    · rfl
    · exact (cellsOrdered_cons _ _ _ _ _).mpr ⟨⟨ha, hhi, hv⟩, rfl⟩
  | cons c rest ih =>
    obtain ⟨b, w⟩ := c
    have h0 := h
    rw [cellsOrdered_cons] at h
    unfold writeCells
    split_ifs with h1 h2 h2 h3
    · exact h0
    · rw [cellsOrdered_cons, cellsOrdered_cons]
      exact ⟨⟨ha, hhi, h2⟩, ⟨by omega, h.1.2.1, h.1.2.2⟩, h.2⟩
    · exact cellsOrdered_mono h.2 (by omega) le_rfl
    · rw [cellsOrdered_cons]
      exact ⟨⟨ha, hhi, h3⟩, cellsOrdered_mono h.2 (by omega) le_rfl⟩
    · rw [cellsOrdered_cons]
      exact ⟨h.1, ih h.2 (by omega)⟩

/-- Reading after a write: the cell written, and every other as before. -/
theorem write_read {m : Memory} (h : m.wf = true) (a x : Nat) (v : Word) :
    (m.write a v).read x = if x = a then v else m.read x :=
  readCells_writeCells h a x v

/-- A cell that does not exist yet reads 0. -/
theorem read_of_len_le {m : Memory} (h : m.wf = true) {x : Nat} (hx : m.len ≤ x) : m.read x = 0 :=
  readCells_of_ge h hx

theorem grow_wf {m : Memory} (h : m.wf = true) (a : Nat) : (m.grow a).wf = true :=
  cellsOrdered_mono h le_rfl (le_max_left _ _)

theorem write_wf {m : Memory} (h : m.wf = true) (a : Nat) (v : Word) : (m.write a v).wf = true :=
  writeCells_ordered v (cellsOrdered_mono h le_rfl (le_max_left _ _)) (Nat.zero_le _)
    (Nat.lt_of_lt_of_le (Nat.lt_succ_self a) (le_max_right _ _))

theorem place_wf {m : Memory} (h : m.wf = true) (a : Nat) (vs : List Word) : (m.place a vs).wf = true := by
  induction vs generalizing m a with
  | nil => exact h
  | cons v vs ih => exact ih (write_wf h a v) (a + 1)

theorem withFetchWord_wf {s : State} (h : s.mem.wf = true) (nbits w : Nat) :
    (s.withFetchWord nbits w).mem.wf = true := place_wf h _ _

/-- Placing cells leaves every address below the first of them as it was, and sets them in order. -/
theorem place_read {m : Memory} (h : m.wf = true) (a x : Nat) (vs : List Word) :
    (m.place a vs).read x = if a ≤ x ∧ x < a + vs.length then vs.getD (x - a) 0 else m.read x := by
  induction vs generalizing m a with
  | nil =>
    rw [if_neg (by simp only [List.length_nil]; omega)]
    rfl
  | cons v vs ih =>
    rw [Memory.place, ih (write_wf h a v), write_read h]
    simp only [List.length_cons]
    rcases Nat.lt_trichotomy x a with hx | hx | hx
    · rw [if_neg (by omega), if_neg (by omega), if_neg (by omega)]
    · subst hx
      simp
    · obtain ⟨d, rfl⟩ : ∃ d, x = a + 1 + d := ⟨x - (a + 1), by omega⟩
      by_cases hd : d < vs.length
      · rw [if_pos (by omega), if_pos (by omega), show a + 1 + d - (a + 1) = d by omega,
          show a + 1 + d - a = d + 1 by omega, List.getD_cons_succ]
      · rw [if_neg (by omega), if_neg (by omega), if_neg (by omega)]

theorem place_len (m : Memory) (a : Nat) (vs : List Word) :
    (m.place a vs).len = if vs = [] then m.len else max m.len (a + vs.length) := by
  induction vs generalizing m a with
  | nil => rfl
  | cons v vs ih =>
    rw [Memory.place, ih, write_len]
    by_cases hv : vs = []
    · subst hv; simp
    · have : 0 < vs.length := List.length_pos_iff.mpr hv
      simp [hv]
      omega

theorem reset_wf : State.reset.mem.wf = true := rfl

end Sys2Proof.Machine
end

