-- ==== Sys2Proof/Laws/Ops.lean ====
section
/-!
SUPPORT. What each shared operation can do, said once: the access primitives, operand resolution, the ALU check and
the commit of an instruction (20_memory.md R32, R33, R47; 30_encoding.md R56 to R61; 40_arithmetic.md R73).
-/

namespace Sys2Proof.Machine

/-- `t` is `s` with some more zero cells in existence and nothing else changed: what reads leave behind (R32, R34). -/
def Grown (s t : State) : Prop :=
  s.mem.len ≤ t.mem.len ∧ t.mem.len ≤ max s.mem.len s.cfg.memMax.val ∧
    t = { s with mem := ⟨s.mem.cells, t.mem.len⟩ }

theorem Grown.refl (s : State) : Grown s s := ⟨le_rfl, le_max_left _ _, rfl⟩

theorem Grown.trans {s t u : State} (h : Grown s t) (k : Grown t u) : Grown s u := by
  obtain ⟨h1, h2, h3⟩ := h
  obtain ⟨k1, k2, k3⟩ := k
  have hc : t.cfg = s.cfg := by rw [h3]
  rw [hc] at k2
  exact ⟨h1.trans k1, by omega, by rw [k3, h3]⟩

theorem Grown.read {s t : State} (h : Grown s t) (x : Nat) : t.mem.read x = s.mem.read x := by
  rw [h.2.2]; rfl

theorem Grown.wf {s t : State} (h : Grown s t) (w : s.mem.wf = true) : t.mem.wf = true := by
  rw [h.2.2]; exact cellsOrdered_mono w le_rfl h.1

theorem Grown.cfg {s t : State} (h : Grown s t) : t.cfg = s.cfg := by rw [h.2.2]

theorem Grown.pc {s t : State} (h : Grown s t) : t.pc = s.pc := by rw [h.2.2]

/-- The growth of one access in bounds. -/
theorem grown_grow {s : State} {a : Nat} (h : a < s.cfg.memMax.val) : Grown s { s with mem := s.mem.grow a } := by
  refine ⟨le_max_left _ _, ?_, rfl⟩
  simp only [grow_len]
  omega

theorem memRead_ok {a : Nat} {s : State} {r : Word × State} :
    memRead a s = .ok r ↔
      a < s.cfg.memMax.val ∧ r = (s.mem.read a, { s with mem := s.mem.grow a }) := by
  unfold memRead raise
  split_ifs with h <;> simp [h, eq_comm]

theorem memRead_error {a : Nat} {s : State} {e : Abort} :
    memRead a s = .error e ↔ s.cfg.memMax.val ≤ a ∧ e = .fault .memoryExhausted a := by
  unfold memRead raise
  split_ifs with h
  · simp; omega
  · simp [eq_comm]; omega

theorem memRead_grown {a : Nat} {s : State} {r : Word × State} (h : memRead a s = .ok r) : Grown s r.2 := by
  obtain ⟨h1, rfl⟩ := memRead_ok.mp h
  exact grown_grow h1

theorem memWrite_ok {a : Nat} {v : Word} {s t : State} :
    memWrite a v s = .ok t ↔ a < s.cfg.memMax.val ∧ t = { s with mem := s.mem.write a v } := by
  unfold memWrite raise
  split_ifs with h <;> simp [h, eq_comm]

theorem memWrite_error {a : Nat} {v : Word} {s : State} {e : Abort} :
    memWrite a v s = .error e ↔ s.cfg.memMax.val ≤ a ∧ e = .fault .memoryExhausted a := by
  unfold memWrite raise
  split_ifs with h
  · simp; omega
  · simp [eq_comm]; omega

theorem readAddress_ok {a : Int} {s : State} {r : Word × State} :
    readAddress a s = .ok r ↔ 0 ≤ a ∧ memRead a.toNat s = .ok r := by
  unfold readAddress raise
  split_ifs with h
  · simp; omega
  · simp; omega

theorem readAddress_error {a : Int} {s : State} {e : Abort} :
    readAddress a s = .error e ↔
      (a < 0 ∧ e = .fault .negativeAddress a) ∨ (0 ≤ a ∧ memRead a.toNat s = .error e) := by
  unfold readAddress raise
  split_ifs with h
  · simp [h, eq_comm, not_le.mpr h]
  · simp [h, not_lt.mp h]

theorem targetAddress_ok {a : Int} {s : State} {r : Nat × State} :
    targetAddress a s = .ok r ↔ 0 ≤ a ∧ a.toNat < s.cfg.memMax.val ∧ r = (a.toNat, s) := by
  unfold targetAddress raise
  split_ifs with h h2
  · simp; omega
  · simp [h2, eq_comm, not_lt.mp h]
  · simp; omega

theorem targetAddress_error {a : Int} {s : State} {e : Abort} :
    targetAddress a s = .error e ↔
      (a < 0 ∧ e = .fault .negativeAddress a) ∨
        (0 ≤ a ∧ s.cfg.memMax.val ≤ a.toNat ∧ e = .fault .memoryExhausted a.toNat) := by
  unfold targetAddress raise
  split_ifs with h h2
  · simp [h, eq_comm, not_le.mpr h]
  · simp [h]; omega
  · simp [h, not_lt.mp h, not_lt.mp h2, eq_comm]

/-- An operand that resolved: its parameter word was fetched, and it is the word itself, or the cell it names was
read (R56). -/
theorem readOperand_ok {i : Nat} {o : Operand} {s : State} {r : Word × State} :
    readOperand i o s = .ok r ↔
      s.pc.toNat + i < s.cfg.memMax.val ∧
        ((o.mode = .immediate ∧ r = (o.word, { s with mem := s.mem.grow (s.pc.toNat + i) })) ∨
          ((o.mode = .absolute ∨ o.mode = .relative) ∧
            readAddress (operandAddress o s.rb) { s with mem := s.mem.grow (s.pc.toNat + i) } = .ok r)) := by
  unfold readOperand
  cases h : memRead (s.pc.toNat + i) s with
  | error e =>
    have := (memRead_error.mp h).1
    simp only [bind, Except.bind, reduceCtorEq, false_iff, not_and]
    omega
  | ok q =>
    obtain ⟨h1, rfl⟩ := memRead_ok.mp h
    cases hm : o.mode <;> simp [bind, Except.bind, raise, h1, eq_comm]

theorem writeOperand_ok {i : Nat} {o : Operand} {s : State} {r : Nat × State} :
    writeOperand i o s = .ok r ↔
      s.pc.toNat + i < s.cfg.memMax.val ∧ (o.mode = .absolute ∨ o.mode = .relative) ∧
        targetAddress (operandAddress o s.rb) { s with mem := s.mem.grow (s.pc.toNat + i) } = .ok r := by
  unfold writeOperand
  cases h : memRead (s.pc.toNat + i) s with
  | error e =>
    have := (memRead_error.mp h).1
    simp only [bind, Except.bind, reduceCtorEq, false_iff, not_and]
    omega
  | ok q =>
    obtain ⟨h1, rfl⟩ := memRead_ok.mp h
    cases hm : o.mode <;> simp [bind, Except.bind, raise, h1]

/-- Why a read operand does not resolve, in R138's order. -/
theorem readOperand_error {i : Nat} {o : Operand} {s : State} {e : Abort} :
    readOperand i o s = .error e ↔
      (s.cfg.memMax.val ≤ s.pc.toNat + i ∧ e = .fault .memoryExhausted (s.pc.toNat + i : Nat)) ∨
        s.pc.toNat + i < s.cfg.memMax.val ∧
          ((∃ k, o.mode = .reserved k ∧ e = .fault .invalidAddressMode o.mode.digit) ∨
            ((o.mode = .absolute ∨ o.mode = .relative) ∧
              readAddress (operandAddress o s.rb) { s with mem := s.mem.grow (s.pc.toNat + i) } = .error e)) := by
  unfold readOperand
  cases h : memRead (s.pc.toNat + i) s with
  | error e' =>
    obtain ⟨h1, rfl⟩ := memRead_error.mp h
    simp [bind, Except.bind, h1, not_lt.mpr h1, eq_comm]
  | ok q =>
    obtain ⟨h1, rfl⟩ := memRead_ok.mp h
    cases hm : o.mode <;> simp [bind, Except.bind, raise, h1, not_le.mpr h1, eq_comm]

/-- Why a write target does not resolve, in R138's order. -/
theorem writeOperand_error {i : Nat} {o : Operand} {s : State} {e : Abort} :
    writeOperand i o s = .error e ↔
      (s.cfg.memMax.val ≤ s.pc.toNat + i ∧ e = .fault .memoryExhausted (s.pc.toNat + i : Nat)) ∨
        s.pc.toNat + i < s.cfg.memMax.val ∧
          (((o.mode = .immediate ∨ ∃ k, o.mode = .reserved k) ∧ e = .fault .invalidAddressMode o.mode.digit) ∨
            ((o.mode = .absolute ∨ o.mode = .relative) ∧
              targetAddress (operandAddress o s.rb) { s with mem := s.mem.grow (s.pc.toNat + i) } = .error e)) := by
  unfold writeOperand
  cases h : memRead (s.pc.toNat + i) s with
  | error e' =>
    obtain ⟨h1, rfl⟩ := memRead_error.mp h
    simp [bind, Except.bind, h1, not_lt.mpr h1, eq_comm]
  | ok q =>
    obtain ⟨h1, rfl⟩ := memRead_ok.mp h
    cases hm : o.mode <;> simp [bind, Except.bind, raise, h1, not_le.mpr h1, eq_comm]

theorem readOperand_grown {i : Nat} {o : Operand} {s : State} {r : Word × State} (h : readOperand i o s = .ok r) :
    Grown s r.2 := by
  obtain ⟨h1, ⟨-, rfl⟩ | ⟨-, h2⟩⟩ := readOperand_ok.mp h
  · exact grown_grow h1
  · exact (grown_grow h1).trans (memRead_grown (readAddress_ok.mp h2).2)

theorem writeOperand_grown {i : Nat} {o : Operand} {s : State} {r : Nat × State} (h : writeOperand i o s = .ok r) :
    Grown s r.2 ∧ r.1 < s.cfg.memMax.val := by
  obtain ⟨h1, -, h2⟩ := writeOperand_ok.mp h
  obtain ⟨-, h3, rfl⟩ := targetAddress_ok.mp h2
  exact ⟨grown_grow h1, h3⟩

theorem fetchWord_ok {x : Nat} {s t : State} :
    fetchWord x s = .ok t ↔
      s.pc.toNat < s.cfg.memMax.val ∧ ¬(s.cfg.excess = .fault ∧ x ≠ 0) ∧
        t = { s with mem := s.mem.grow s.pc.toNat } := by
  unfold fetchWord
  cases h : memRead s.pc.toNat s with
  | error e =>
    have := (memRead_error.mp h).1
    simp only [bind, Except.bind, reduceCtorEq, false_iff, not_and]
    omega
  | ok q =>
    obtain ⟨h1, rfl⟩ := memRead_ok.mp h
    simp only [bind, Except.bind, raise]
    split_ifs with h2
    · simp [h2]
    · simp only [Except.ok.injEq]
      exact ⟨fun k => ⟨h1, h2, k.symm⟩, fun k => k.2.2.symm⟩

theorem fetchWord_error {x : Nat} {s : State} {e : Abort} :
    fetchWord x s = .error e ↔
      (s.cfg.memMax.val ≤ s.pc.toNat ∧ e = .fault .memoryExhausted s.pc.toNat) ∨
        (s.pc.toNat < s.cfg.memMax.val ∧ (s.cfg.excess = .fault ∧ x ≠ 0) ∧ e = .fault .invalidAddressMode x) := by
  unfold fetchWord
  cases h : memRead s.pc.toNat s with
  | error e' =>
    obtain ⟨h1, rfl⟩ := memRead_error.mp h
    simp [bind, Except.bind, h1, not_lt.mpr h1, eq_comm]
  | ok q =>
    obtain ⟨h1, rfl⟩ := memRead_ok.mp h
    simp only [bind, Except.bind, raise]
    split_ifs with h2
    · simp [h1, h2, not_le.mpr h1, eq_comm]
    · simp only [h2, false_and, and_false, or_false, not_le.mpr h1]

theorem fetchWord_grown {x : Nat} {s t : State} (h : fetchWord x s = .ok t) : Grown s t := by
  obtain ⟨h1, -, rfl⟩ := fetchWord_ok.mp h
  exact grown_grow h1

theorem resolveR_ok {x : Nat} {a : Operand} {s : State} {r : Word × State} :
    resolveR x a s = .ok r ↔ ∃ s0, fetchWord x s = .ok s0 ∧ readOperand 1 a s0 = .ok r := by
  unfold resolveR
  cases h : fetchWord x s <;> simp [bind, Except.bind]

theorem resolveR_error {x : Nat} {a : Operand} {s : State} {e : Abort} :
    resolveR x a s = .error e ↔
      fetchWord x s = .error e ∨ ∃ s0, fetchWord x s = .ok s0 ∧ readOperand 1 a s0 = .error e := by
  unfold resolveR
  cases h : fetchWord x s <;> simp [bind, Except.bind]

theorem resolveW_ok {x : Nat} {a : Operand} {s : State} {r : Nat × State} :
    resolveW x a s = .ok r ↔ ∃ s0, fetchWord x s = .ok s0 ∧ writeOperand 1 a s0 = .ok r := by
  unfold resolveW
  cases h : fetchWord x s <;> simp [bind, Except.bind]

theorem resolveW_error {x : Nat} {a : Operand} {s : State} {e : Abort} :
    resolveW x a s = .error e ↔
      fetchWord x s = .error e ∨ ∃ s0, fetchWord x s = .ok s0 ∧ writeOperand 1 a s0 = .error e := by
  unfold resolveW
  cases h : fetchWord x s <;> simp [bind, Except.bind]

theorem resolveRR_ok {x : Nat} {a b : Operand} {s : State} {r : Word × Word × State} :
    resolveRR x a b s = .ok r ↔
      ∃ s1, resolveR x a s = .ok (r.1, s1) ∧ readOperand 2 b s1 = .ok (r.2.1, r.2.2) := by
  obtain ⟨ra, rb, rs⟩ := r
  unfold resolveRR
  cases h : resolveR x a s with
  | error e => simp [bind, Except.bind]
  | ok q =>
    obtain ⟨qa, qs⟩ := q
    cases h2 : readOperand 2 b qs with
    | error e => simp [bind, Except.bind, h2]
    | ok q2 =>
      obtain ⟨qb, qt⟩ := q2
      simp only [bind, Except.bind, h2, Except.ok.injEq, Prod.mk.injEq]
      constructor
      · rintro ⟨rfl, rfl, rfl⟩; exact ⟨qs, ⟨rfl, rfl⟩, h2⟩
      · rintro ⟨s1, ⟨rfl, rfl⟩, h3⟩; rw [h2] at h3; simpa using h3

theorem resolveRRW_ok {x : Nat} {a b t : Operand} {s : State} {r : Word × Word × Nat × State} :
    resolveRRW x a b t s = .ok r ↔
      ∃ s2, resolveRR x a b s = .ok (r.1, r.2.1, s2) ∧ writeOperand 3 t s2 = .ok (r.2.2.1, r.2.2.2) := by
  obtain ⟨ra, rb, rt, rs⟩ := r
  unfold resolveRRW
  cases h : resolveRR x a b s with
  | error e => simp [bind, Except.bind]
  | ok q =>
    obtain ⟨qa, qb, qs⟩ := q
    cases h2 : writeOperand 3 t qs with
    | error e => simp [bind, Except.bind, h2]
    | ok q2 =>
      obtain ⟨qt, qu⟩ := q2
      simp only [bind, Except.bind, h2, Except.ok.injEq, Prod.mk.injEq]
      constructor
      · rintro ⟨rfl, rfl, rfl, rfl⟩; exact ⟨qs, ⟨rfl, rfl, rfl⟩, h2⟩
      · rintro ⟨s1, ⟨rfl, rfl, rfl⟩, h3⟩; rw [h2] at h3; simpa using h3

theorem resolveRR_error {x : Nat} {a b : Operand} {s : State} {e : Abort} :
    resolveRR x a b s = .error e ↔
      resolveR x a s = .error e ∨ ∃ va s1, resolveR x a s = .ok (va, s1) ∧ readOperand 2 b s1 = .error e := by
  unfold resolveRR
  cases h : resolveR x a s with
  | error e => simp [bind, Except.bind]
  | ok q => cases h2 : readOperand 2 b q.2 <;> simp [bind, Except.bind, h2, Prod.ext_iff]

theorem resolveRRW_error {x : Nat} {a b t : Operand} {s : State} {e : Abort} :
    resolveRRW x a b t s = .error e ↔
      resolveRR x a b s = .error e ∨
        ∃ va vb s2, resolveRR x a b s = .ok (va, vb, s2) ∧ writeOperand 3 t s2 = .error e := by
  unfold resolveRRW
  cases h : resolveRR x a b s with
  | error e => simp [bind, Except.bind]
  | ok q => cases h2 : writeOperand 3 t q.2.2 <;> simp [bind, Except.bind, h2, Prod.ext_iff]

theorem resolveR_grown {x : Nat} {a : Operand} {s : State} {r : Word × State} (h : resolveR x a s = .ok r) :
    Grown s r.2 := by
  obtain ⟨s0, h0, h1⟩ := resolveR_ok.mp h
  exact (fetchWord_grown h0).trans (readOperand_grown h1)

theorem resolveW_grown {x : Nat} {a : Operand} {s : State} {r : Nat × State} (h : resolveW x a s = .ok r) :
    Grown s r.2 ∧ r.1 < s.cfg.memMax.val := by
  obtain ⟨s0, h0, h1⟩ := resolveW_ok.mp h
  have g := fetchWord_grown h0
  have hc : s0.cfg = s.cfg := g.cfg
  exact ⟨g.trans (writeOperand_grown h1).1, hc ▸ (writeOperand_grown h1).2⟩

theorem resolveRR_grown {x : Nat} {a b : Operand} {s : State} {r : Word × Word × State}
    (h : resolveRR x a b s = .ok r) : Grown s r.2.2 := by
  obtain ⟨s1, h1, h2⟩ := resolveRR_ok.mp h
  exact (resolveR_grown h1).trans (readOperand_grown h2)

theorem resolveRRW_grown {x : Nat} {a b t : Operand} {s : State} {r : Word × Word × Nat × State}
    (h : resolveRRW x a b t s = .ok r) : Grown s r.2.2.2 ∧ r.2.2.1 < s.cfg.memMax.val := by
  obtain ⟨s2, h1, h2⟩ := resolveRRW_ok.mp h
  have g := resolveRR_grown h1
  have hc : s2.cfg = s.cfg := g.cfg
  exact ⟨g.trans (writeOperand_grown h2).1, hc ▸ (writeOperand_grown h2).2⟩

/-- The result of format RRW: the ALU's value in the cell the last operand names, after the reads' growth. -/
theorem runRRW_ok {alu : Config → Word → Word → Except Abort Word} {x : Nat} {a b t : Operand} {s u : State} :
    runRRW alu x a b t s = .ok u ↔
      ∃ va vb ad s1 r, resolveRRW x a b t s = .ok (va, vb, ad, s1) ∧ alu s.cfg va vb = .ok r ∧
        u = advance 4 { s1 with mem := s1.mem.write ad r } := by
  unfold runRRW
  cases h : resolveRRW x a b t s with
  | error e => simp [bind, Except.bind]
  | ok q =>
    obtain ⟨va, vb, ad, s1⟩ := q
    obtain ⟨g, hlt⟩ := resolveRRW_grown h
    cases h2 : alu s.cfg va vb with
    | error e =>
      simp only [bind, Except.bind, h2, reduceCtorEq, Except.ok.injEq, Prod.mk.injEq, false_iff]
      rintro ⟨va', vb', ad', s1', r, ⟨rfl, rfl, rfl, rfl⟩, h3, -⟩
      rw [h2] at h3
      cases h3
    | ok r =>
      have hw : memWrite ad r s1 = .ok { s1 with mem := s1.mem.write ad r } :=
        memWrite_ok.mpr ⟨g.cfg ▸ hlt, rfl⟩
      simp only [bind, Except.bind, h2, hw, Except.ok.injEq, Prod.mk.injEq]
      constructor
      · rintro rfl; exact ⟨va, vb, ad, s1, r, ⟨rfl, rfl, rfl, rfl⟩, h2, rfl⟩
      · rintro ⟨va', vb', ad', s1', r', ⟨rfl, rfl, rfl, rfl⟩, h3, rfl⟩
        rw [h2] at h3
        cases h3
        rfl

/-- Why format RRW ends early: an operand does not resolve, or the ALU raises (R138). -/
theorem runRRW_error {alu : Config → Word → Word → Except Abort Word} {x : Nat} {a b t : Operand} {s : State}
    {e : Abort} :
    runRRW alu x a b t s = .error e ↔
      resolveRRW x a b t s = .error e ∨
        ∃ va vb ad s1, resolveRRW x a b t s = .ok (va, vb, ad, s1) ∧ alu s.cfg va vb = .error e := by
  unfold runRRW
  cases h : resolveRRW x a b t s with
  | error e => simp [bind, Except.bind]
  | ok q =>
    obtain ⟨va, vb, ad, s1⟩ := q
    obtain ⟨g, hlt⟩ := resolveRRW_grown h
    cases h2 : alu s.cfg va vb with
    | error e' =>
      simp only [bind, Except.bind, h2, Except.error.injEq, reduceCtorEq, Except.ok.injEq, Prod.mk.injEq, false_or]
      constructor
      · rintro rfl; exact ⟨va, vb, ad, s1, ⟨rfl, rfl, rfl, rfl⟩, h2⟩
      · rintro ⟨va', vb', ad', s1', ⟨rfl, rfl, rfl, rfl⟩, h3⟩
        rw [h2] at h3
        simpa using h3
    | ok r =>
      have hw : memWrite ad r s1 = .ok { s1 with mem := s1.mem.write ad r } :=
        memWrite_ok.mpr ⟨g.cfg ▸ hlt, rfl⟩
      simp only [bind, Except.bind, h2, hw, reduceCtorEq, Except.ok.injEq, Prod.mk.injEq, false_or, false_iff]
      rintro ⟨va', vb', ad', s1', ⟨rfl, rfl, rfl, rfl⟩, h3⟩
      rw [h2] at h3
      cases h3

/-- The result of format RR (R80, R81, R82). -/
theorem runJump_ok {holds : Word → Bool} {x : Nat} {c t : Operand} {s u : State} :
    runJump holds x c t s = .ok u ↔
      ∃ vc vt s1, resolveRR x c t s = .ok (vc, vt, s1) ∧
        ((holds vc = true ∧ 0 ≤ vt.toInt ∧ u = { s1 with pc := vt }) ∨ (holds vc = false ∧ u = advance 3 s1)) := by
  unfold runJump
  cases h : resolveRR x c t s with
  | error e => simp [bind, Except.bind]
  | ok q =>
    obtain ⟨vc, vt, s1⟩ := q
    simp only [bind, Except.bind, raise, Except.ok.injEq, Prod.mk.injEq]
    constructor
    · intro h2
      refine ⟨vc, vt, s1, ⟨rfl, rfl, rfl⟩, ?_⟩
      split_ifs at h2 with h3 h4
      · exact .inl ⟨h3, by omega, by simpa using h2.symm⟩
      · exact .inr ⟨by simpa using h3, by simpa using h2.symm⟩
    · rintro ⟨vc', vt', s1', ⟨rfl, rfl, rfl⟩, ⟨h3, h4, rfl⟩ | ⟨h3, rfl⟩⟩
      · rw [if_pos h3, if_neg (by omega)]
      · rw [if_neg (by simp [h3])]

theorem runJump_error {holds : Word → Bool} {x : Nat} {c t : Operand} {s : State} {e : Abort} :
    runJump holds x c t s = .error e ↔
      resolveRR x c t s = .error e ∨
        ∃ vc vt s1, resolveRR x c t s = .ok (vc, vt, s1) ∧ holds vc = true ∧ vt.toInt < 0 ∧
          e = .fault .negativeJumpTarget vt.toInt := by
  unfold runJump
  cases h : resolveRR x c t s with
  | error e => simp [bind, Except.bind]
  | ok q =>
    obtain ⟨vc, vt, s1⟩ := q
    simp only [bind, Except.bind, raise, Except.ok.injEq, Prod.mk.injEq, reduceCtorEq, false_or]
    constructor
    · intro h2
      split_ifs at h2 with h3 h4
      exact ⟨vc, vt, s1, ⟨rfl, rfl, rfl⟩, h3, h4, by simpa using h2.symm⟩
    · rintro ⟨vc', vt', s1', ⟨rfl, rfl, rfl⟩, h3, h4, rfl⟩
      rw [if_pos h3, if_pos h4]

theorem chk64_ok {cfg : Config} {z : Int} {r : Word} :
    chk64 cfg z = .ok r ↔ (fits64 z = true ∨ cfg.overflow = .wrap) ∧ r = wrap64 z := by
  unfold chk64 raise
  cases fits64 z <;> cases cfg.overflow <;> simp [eq_comm]

theorem chk64_error {cfg : Config} {z : Int} {e : Abort} :
    chk64 cfg z = .error e ↔
      fits64 z = false ∧ cfg.overflow = .fault ∧ e = .fault .arithmeticOverflow (wrap64 z).toInt := by
  unfold chk64 raise
  cases fits64 z <;> cases cfg.overflow <;> simp [eq_comm]

theorem fits64_iff {z : Int} : fits64 z = true ↔ -9223372036854775808 ≤ z ∧ z ≤ 9223372036854775807 := by
  unfold fits64
  rw [decide_eq_true_iff]
  exact Iff.rfl

/-- A value that fits is what its cell reads as. -/
theorem wrap64_toInt {z : Int} (h : fits64 z = true) : (wrap64 z).toInt = z := by
  obtain ⟨h1, h2⟩ := fits64_iff.mp h
  exact BitVec.toInt_ofInt_eq_self (by decide) h1 (by norm_num; omega)

theorem wrap64_toInt_self (w : Word) : wrap64 w.toInt = w := BitVec.ofInt_toInt

/-- Every cell value fits (R31). -/
theorem fits64_toInt (w : Word) : fits64 w.toInt = true := by
  have h1 := w.le_toInt
  have h2 := w.toInt_lt
  norm_num at h1 h2
  exact fits64_iff.mpr ⟨h1, by omega⟩

/-- An instruction always ends in a next state: the committed copy, or the state its abort leaves (R7, R47). -/
theorem commit_next {s t : State} {r : Except Abort State} :
    commit s r = .next t ↔ r = .ok t ∨ ∃ e, r = .error e ∧ t = abandon s e := by
  cases r <;> simp [commit, eq_comm]

end Sys2Proof.Machine
end

