-- ==== Sys2Proof/Laws/Exec.lean ====
section
/-!
SUPPORT. What `exec` and `step` can do, said once: every instruction is the commit of its pseudocode, which either
reaches its end in one of eight ways or is abandoned (R7, R101).
-/

namespace Sys2Proof.Machine

/-- The pseudocode of an instruction, before its commit. -/
def body (i : Instr) (s : State) : Except Abort State :=
  match i with
  | .add x a b t => runRRW (fun cfg va vb => chk64 cfg (va.toInt + vb.toInt)) x a b t s
  | .multiply x a b t => runRRW (fun cfg va vb => chk64 cfg (va.toInt * vb.toInt)) x a b t s
  | .input x t => do
    let (addr, s1) ← resolveW x t s
    match s.inq with
    | [] => .error .awaitingInput
    | v :: rest =>
      let s2 ← memWrite addr v { s1 with inq := rest }
      .ok (advance 2 s2)
  | .output x a => do
    let (va, s1) ← resolveR x a s
    .ok (advance 2 { s1 with out := s1.out ++ [va] })
  | .jumpIfTrue x c t => runJump (fun v => decide (v ≠ 0)) x c t s
  | .jumpIfFalse x c t => runJump (fun v => decide (v = 0)) x c t s
  | .lessThan x a b t => runRRW (fun _ va vb => .ok (lessThanCell va vb)) x a b t s
  | .equals x a b t => runRRW (fun _ va vb => .ok (equalsCell va vb)) x a b t s
  | .adjustRelativeBase x a => do
    let (va, s1) ← resolveR x a s
    let r ← chk64 s.cfg (s.rb.toInt + va.toInt)
    .ok (advance 2 { s1 with rb := r })
  | .halt x => do
    let s1 ← fetchWord x s
    .ok (advance 1 { s1 with halted := true, status := .halted })

theorem exec_eq_commit (i : Instr) (s : State) : exec i s = commit s (body i s) := by
  cases i <;> rfl

theorem add_body (x : Nat) (a b t : Operand) (s : State) :
    body (.add x a b t) s = runRRW (fun cfg va vb => chk64 cfg (va.toInt + vb.toInt)) x a b t s := rfl

theorem multiply_body (x : Nat) (a b t : Operand) (s : State) :
    body (.multiply x a b t) s = runRRW (fun cfg va vb => chk64 cfg (va.toInt * vb.toInt)) x a b t s := rfl

theorem lessThan_body (x : Nat) (a b t : Operand) (s : State) :
    body (.lessThan x a b t) s = runRRW (fun _ va vb => .ok (lessThanCell va vb)) x a b t s := rfl

theorem equals_body (x : Nat) (a b t : Operand) (s : State) :
    body (.equals x a b t) s = runRRW (fun _ va vb => .ok (equalsCell va vb)) x a b t s := rfl

theorem jumpIfTrue_body (x : Nat) (c t : Operand) (s : State) :
    body (.jumpIfTrue x c t) s = runJump (fun v => decide (v ≠ 0)) x c t s := rfl

theorem jumpIfFalse_body (x : Nat) (c t : Operand) (s : State) :
    body (.jumpIfFalse x c t) s = runJump (fun v => decide (v = 0)) x c t s := rfl

theorem input_body_ok {x : Nat} {o : Operand} {s t : State} :
    body (.input x o) s = .ok t ↔
      ∃ ad s1 v rest, resolveW x o s = .ok (ad, s1) ∧ s.inq = v :: rest ∧
        t = advance 2 { s1 with inq := rest, mem := s1.mem.write ad v } := by
  simp only [body]
  cases h : resolveW x o s with
  | error e => simp [bind, Except.bind]
  | ok q =>
    obtain ⟨ad, s1⟩ := q
    obtain ⟨g, hlt⟩ := resolveW_grown h
    cases hq : s.inq with
    | nil => simp [bind, Except.bind]
    | cons v rest =>
      have hw : memWrite ad v { s1 with inq := rest } = .ok { s1 with inq := rest, mem := s1.mem.write ad v } :=
        memWrite_ok.mpr ⟨g.cfg ▸ hlt, rfl⟩
      simp only [bind, Except.bind, hw, Except.ok.injEq, Prod.mk.injEq, List.cons.injEq]
      constructor
      · rintro rfl; exact ⟨ad, s1, v, rest, ⟨rfl, rfl⟩, ⟨rfl, rfl⟩, rfl⟩
      · rintro ⟨ad', s1', v', rest', ⟨rfl, rfl⟩, ⟨rfl, rfl⟩, rfl⟩; rfl

theorem input_body_error {x : Nat} {o : Operand} {s : State} {e : Abort} :
    body (.input x o) s = .error e ↔
      resolveW x o s = .error e ∨
        ((∃ ad s1, resolveW x o s = .ok (ad, s1)) ∧ s.inq = [] ∧ e = .awaitingInput) := by
  simp only [body]
  cases h : resolveW x o s with
  | error e => simp [bind, Except.bind]
  | ok q =>
    obtain ⟨ad, s1⟩ := q
    obtain ⟨g, hlt⟩ := resolveW_grown h
    cases hq : s.inq with
    | nil => simp [bind, Except.bind, eq_comm]
    | cons v rest =>
      have hw : memWrite ad v { s1 with inq := rest } = .ok { s1 with inq := rest, mem := s1.mem.write ad v } :=
        memWrite_ok.mpr ⟨g.cfg ▸ hlt, rfl⟩
      simp [bind, Except.bind, hw]

theorem output_body_ok {x : Nat} {o : Operand} {s t : State} :
    body (.output x o) s = .ok t ↔
      ∃ v s1, resolveR x o s = .ok (v, s1) ∧ t = advance 2 { s1 with out := s1.out ++ [v] } := by
  simp only [body]
  cases h : resolveR x o s <;> simp [bind, Except.bind, eq_comm, Prod.ext_iff]

theorem output_body_error {x : Nat} {o : Operand} {s : State} {e : Abort} :
    body (.output x o) s = .error e ↔ resolveR x o s = .error e := by
  simp only [body]
  cases h : resolveR x o s <;> simp [bind, Except.bind]

theorem adjust_body_ok {x : Nat} {o : Operand} {s t : State} :
    body (.adjustRelativeBase x o) s = .ok t ↔
      ∃ v s1 r, resolveR x o s = .ok (v, s1) ∧ chk64 s.cfg (s.rb.toInt + v.toInt) = .ok r ∧
        t = advance 2 { s1 with rb := r } := by
  simp only [body]
  cases h : resolveR x o s with
  | error e => simp [bind, Except.bind]
  | ok q =>
    cases h2 : chk64 s.cfg (s.rb.toInt + q.1.toInt) with
    | error e =>
      simp only [bind, Except.bind, h2, reduceCtorEq, false_iff]
      rintro ⟨v, s1, r, h3, h4, -⟩
      cases h3
      rw [h2] at h4
      cases h4
    | ok r =>
      simp only [bind, Except.bind, h2, Except.ok.injEq]
      constructor
      · rintro rfl; exact ⟨q.1, q.2, r, rfl, h2, rfl⟩
      · rintro ⟨v, s1, r', rfl, h4, rfl⟩
        rw [h2] at h4
        cases h4
        rfl

theorem adjust_body_error {x : Nat} {o : Operand} {s : State} {e : Abort} :
    body (.adjustRelativeBase x o) s = .error e ↔
      resolveR x o s = .error e ∨
        ∃ v s1, resolveR x o s = .ok (v, s1) ∧ chk64 s.cfg (s.rb.toInt + v.toInt) = .error e := by
  simp only [body]
  cases h : resolveR x o s with
  | error e => simp [bind, Except.bind]
  | ok q => cases h2 : chk64 s.cfg (s.rb.toInt + q.1.toInt) <;> simp [bind, Except.bind, h2, Prod.ext_iff]

theorem halt_body_ok {x : Nat} {s t : State} :
    body (.halt x) s = .ok t ↔
      ∃ s1, fetchWord x s = .ok s1 ∧ t = advance 1 { s1 with halted := true, status := .halted } := by
  simp only [body]
  cases h : fetchWord x s <;> simp [bind, Except.bind, eq_comm]

theorem halt_body_error {x : Nat} {s : State} {e : Abort} :
    body (.halt x) s = .error e ↔ fetchWord x s = .error e := by
  simp only [body]
  cases h : fetchWord x s <;> simp [bind, Except.bind]

/-- Every way a completed instruction changes the state it found: `g` is that state after the growth its reads did,
and each case names the items written (R71 to R91). -/
theorem body_ok {i : Instr} {s t : State} (h : body i s = .ok t) :
    ∃ g, Grown s g ∧ s.pc.toNat + i.length ≤ s.cfg.memMax.val ∧
      ((∃ ad r, ad < s.cfg.memMax.val ∧ t = advance 4 { g with mem := g.mem.write ad r }) ∨
        (∃ x o ad v rest, i = .input x o ∧ s.inq = v :: rest ∧ ad < s.cfg.memMax.val ∧
          t = advance 2 { g with inq := rest, mem := g.mem.write ad v }) ∨
        (∃ x o v, i = .output x o ∧ t = advance 2 { g with out := g.out ++ [v] }) ∨
        (∃ v : Word, 0 ≤ v.toInt ∧ t = { g with pc := v }) ∨
        t = advance 3 g ∨
        (∃ x o r, i = .adjustRelativeBase x o ∧ t = advance 2 { g with rb := r }) ∨
        (∃ x, i = .halt x ∧ t = advance 1 { g with halted := true, status := .halted })) := by
  have one : ∀ {x : Nat} {a : Operand} {r : Word × State}, resolveR x a s = .ok r →
      s.pc.toNat + 1 < s.cfg.memMax.val := by
    intro x a r h
    obtain ⟨s0, h0, h1⟩ := resolveR_ok.mp h
    have h2 := (readOperand_ok.mp h1).1
    have g := fetchWord_grown h0
    rwa [g.pc, g.cfg] at h2
  have two : ∀ {x : Nat} {a b : Operand} {r : Word × Word × State}, resolveRR x a b s = .ok r →
      s.pc.toNat + 2 < s.cfg.memMax.val := by
    intro x a b r h
    obtain ⟨s0, h0, h1⟩ := resolveRR_ok.mp h
    have h2 := (readOperand_ok.mp h1).1
    have g := resolveR_grown h0
    rwa [g.pc, g.cfg] at h2
  have three : ∀ {x : Nat} {a b c : Operand} {r : Word × Word × Nat × State}, resolveRRW x a b c s = .ok r →
      s.pc.toNat + 3 < s.cfg.memMax.val := by
    intro x a b c r h
    obtain ⟨s0, h0, h1⟩ := resolveRRW_ok.mp h
    have h2 := (writeOperand_ok.mp h1).1
    have g := resolveRR_grown h0
    rwa [g.pc, g.cfg] at h2
  have rrw : ∀ {alu : Config → Word → Word → Except Abort Word} {x : Nat} {a b o : Operand},
      runRRW alu x a b o s = .ok t → ∃ g, Grown s g ∧ s.pc.toNat + 4 ≤ s.cfg.memMax.val ∧
        ∃ ad r, ad < s.cfg.memMax.val ∧ t = advance 4 { g with mem := g.mem.write ad r } := by
    intro alu x a b o h
    obtain ⟨va, vb, ad, s1, r, h1, -, rfl⟩ := runRRW_ok.mp h
    have := three h1
    obtain ⟨g, hlt⟩ := resolveRRW_grown h1
    exact ⟨s1, g, by omega, ad, r, hlt, rfl⟩
  have jump : ∀ {p : Word → Bool} {x : Nat} {c o : Operand}, runJump p x c o s = .ok t →
      ∃ g, Grown s g ∧ s.pc.toNat + 3 ≤ s.cfg.memMax.val ∧
        ((∃ v : Word, 0 ≤ v.toInt ∧ t = { g with pc := v }) ∨ t = advance 3 g) := by
    intro p x c o h
    obtain ⟨vc, vt, s1, h1, h2⟩ := runJump_ok.mp h
    have := two h1
    refine ⟨s1, resolveRR_grown h1, by omega, ?_⟩
    rcases h2 with ⟨-, h3, h4⟩ | ⟨-, h4⟩
    · exact .inl ⟨vt, h3, h4⟩
    · exact .inr h4
  cases i with
  | add x a b o | multiply x a b o | lessThan x a b o | equals x a b o =>
    simp only [body] at h
    obtain ⟨g, h1, h2, h3⟩ := rrw h
    exact ⟨g, h1, h2, .inl h3⟩
  | jumpIfTrue x c o | jumpIfFalse x c o =>
    simp only [body] at h
    obtain ⟨g, h1, h2, h3 | h3⟩ := jump h
    · exact ⟨g, h1, h2, .inr (.inr (.inr (.inl h3)))⟩
    · exact ⟨g, h1, h2, .inr (.inr (.inr (.inr (.inl h3))))⟩
  | input x o =>
    obtain ⟨ad, s1, v, rest, h1, h2, rfl⟩ := input_body_ok.mp h
    obtain ⟨s0, h0, h3⟩ := resolveW_ok.mp h1
    have h4 := (writeOperand_ok.mp h3).1
    have g0 := fetchWord_grown h0
    rw [g0.pc, g0.cfg] at h4
    obtain ⟨g, hlt⟩ := resolveW_grown h1
    exact ⟨s1, g, h4, .inr (.inl ⟨x, o, ad, v, rest, rfl, h2, hlt, rfl⟩)⟩
  | output x o =>
    obtain ⟨v, s1, h1, rfl⟩ := output_body_ok.mp h
    exact ⟨s1, resolveR_grown h1, one h1, .inr (.inr (.inl ⟨x, o, v, rfl, rfl⟩))⟩
  | adjustRelativeBase x o =>
    obtain ⟨v, s1, r, h1, -, rfl⟩ := adjust_body_ok.mp h
    exact ⟨s1, resolveR_grown h1, one h1, .inr (.inr (.inr (.inr (.inr (.inl ⟨x, o, r, rfl, rfl⟩)))))⟩
  | halt x =>
    obtain ⟨s1, h1, rfl⟩ := halt_body_ok.mp h
    exact ⟨s1, fetchWord_grown h1, (fetchWord_ok.mp h1).1,
      .inr (.inr (.inr (.inr (.inr (.inr ⟨x, rfl, rfl⟩)))))⟩

/-- A step of a machine that is not over: it answers, with the abandoned or the committed state (R101, R102). -/
theorem step_running {s r : State} (h : enterRun s = some r) :
    (∃ e, fetch r = .error e ∧ step s = .next (abandon r e)) ∨ ∃ i, fetch r = .ok i ∧ step s = commit r (body i r) := by
  cases hf : fetch r with
  | error e => exact .inl ⟨e, rfl, by simp only [step, h, hf]⟩
  | ok i => exact .inr ⟨i, rfl, by simp only [step, h, hf, exec_eq_commit]⟩

/-- A machine that is over stays as it is (R110, R111). -/
theorem step_over {s : State} (h : enterRun s = none) : step s = .next s := by
  unfold step
  rw [h]

end Sys2Proof.Machine
end

