-- ==== Sys2Proof/Laws/PerInstr.lean ====
section
/-!
SUPPORT. One statement about every instruction as syntax: the shape of its encoding (30_encoding.md R50, R51, R54, R64).
-/

namespace Sys2Proof.Laws.Encoding

/-- The encoding has as many cells as the instruction's length, 1 to 4 of them; its first cell is the instruction
word and reads as the word's number when the encoding can hold it; the opcode is the word mod 100 and the rest of
the word the mode digits; the further cells are the parameter words. -/
def Statement (i : Instr) : Prop :=
  (encode i).length = i.length ∧ 1 ≤ i.length ∧ i.length ≤ maxLength ∧
    (encode i).tail = i.operands.map (fun o => o.2.word) ∧
    i.wordValue % 100 = i.opcode ∧ i.wordValue / 100 = modeDigits i.operands i.excess ∧
    (i.encodable = true → ((encode i).headD 0).toInt = i.wordValue)

/-- A number below 2^63 is what its cell reads as. -/
theorem ofNat_toInt {n : Nat} (h : n < 2 ^ 63) : (BitVec.ofNat 64 n).toInt = n := by
  rw [BitVec.toInt_eq_toNat_of_lt, BitVec.toNat_ofNat, Nat.mod_eq_of_lt]
  · omega
  · rw [BitVec.toNat_ofNat, Nat.mod_eq_of_lt] <;> omega

/-- The statement from what differs between constructors: the operand count and the opcode. -/
theorem of_count {i : Instr} (hn : i.operands.length ≤ 3) (ho : i.opcode < 100) : Statement i := by
  refine ⟨by simp [encode, Instr.length, Nat.add_comm], by simp [Instr.length], ?_, rfl, ?_, ?_, ?_⟩
  · unfold Instr.length maxLength; omega
  · unfold Instr.wordValue; omega
  · unfold Instr.wordValue; omega
  · intro h
    exact ofNat_toInt (of_decide_eq_true h)

theorem add (x : Nat) (a b t : Operand) : Statement (.add x a b t) :=
  of_count (by simp [Instr.operands]) (by simp [Instr.opcode])

theorem multiply (x : Nat) (a b t : Operand) : Statement (.multiply x a b t) :=
  of_count (by simp [Instr.operands]) (by simp [Instr.opcode])

theorem input (x : Nat) (t : Operand) : Statement (.input x t) :=
  of_count (by simp [Instr.operands]) (by simp [Instr.opcode])

theorem output (x : Nat) (a : Operand) : Statement (.output x a) :=
  of_count (by simp [Instr.operands]) (by simp [Instr.opcode])

theorem jumpIfTrue (x : Nat) (c t : Operand) : Statement (.jumpIfTrue x c t) :=
  of_count (by simp [Instr.operands]) (by simp [Instr.opcode])

theorem jumpIfFalse (x : Nat) (c t : Operand) : Statement (.jumpIfFalse x c t) :=
  of_count (by simp [Instr.operands]) (by simp [Instr.opcode])

theorem lessThan (x : Nat) (a b t : Operand) : Statement (.lessThan x a b t) :=
  of_count (by simp [Instr.operands]) (by simp [Instr.opcode])

theorem equals (x : Nat) (a b t : Operand) : Statement (.equals x a b t) :=
  of_count (by simp [Instr.operands]) (by simp [Instr.opcode])

theorem adjustRelativeBase (x : Nat) (a : Operand) : Statement (.adjustRelativeBase x a) :=
  of_count (by simp [Instr.operands]) (by simp [Instr.opcode])

theorem halt (x : Nat) : Statement (.halt x) :=
  of_count (by simp [Instr.operands]) (by simp [Instr.opcode])

end Sys2Proof.Laws.Encoding
end

