-- ==== Sys2Proof/Laws/ProgramText.lean ====
section
/-!
SUPPORT. What the text functions of the loader do, said once (30_encoding.md R63): splitting at the commas, trimming,
and reading digits.
-/

namespace Sys2Proof.Machine

/-- Every character is a decimal digit (R63, `digit`). -/
def AllDigits (ds : List Char) : Prop := ∀ a ∈ ds, '0' ≤ a ∧ a ≤ '9'

theorem splitCommas_ne_nil (cs : List Char) : splitCommas cs ≠ [] := by
  cases cs with
  | nil => simp [splitCommas]
  | cons c cs => simp only [splitCommas]; split <;> (try split) <;> simp

theorem splitCommas_of_not_mem {t : List Char} (h : ',' ∉ t) : splitCommas t = [t] := by
  induction t with
  | nil => rfl
  | cons c cs ih =>
    simp only [List.mem_cons, not_or] at h
    simp [splitCommas, ih h.2, Ne.symm h.1]

theorem splitCommas_append {t : List Char} (h : ',' ∉ t) (cs : List Char) :
    splitCommas (t ++ ',' :: cs) = t :: splitCommas cs := by
  induction t with
  | nil =>
    cases hs : splitCommas cs with
    | nil => exact absurd hs (splitCommas_ne_nil cs)
    | cons u us => simp [splitCommas, hs]
  | cons c t ih =>
    simp only [List.mem_cons, not_or] at h
    simp [splitCommas, ih h.2, Ne.symm h.1]

/-- The tokens of a text joined by commas are its tokens. -/
theorem splitCommas_intercalate {ts : List (List Char)} (hn : ts ≠ []) (h : ∀ t ∈ ts, ',' ∉ t) :
    splitCommas (List.intercalate [','] ts) = ts := by
  induction ts with
  | nil => exact absurd rfl hn
  | cons t us ih =>
    cases us with
    | nil => simpa [List.intercalate] using splitCommas_of_not_mem (h t (by simp))
    | cons u vs =>
      have := ih (by simp) fun x hx => h x (by simp [hx])
      rw [show List.intercalate [','] (t :: u :: vs) = t ++ ',' :: List.intercalate [','] (u :: vs) by
        simp [List.intercalate], splitCommas_append (h t (by simp)), this]

theorem readTokens_eq_some {ts : List (List Char)} {ws : List Word} :
    readTokens ts = some ws ↔ List.Forall₂ (fun t w => readToken t = some w) ts ws := by
  induction ts generalizing ws with
  | nil => cases ws <;> simp [readTokens]
  | cons t ts ih =>
    simp only [readTokens, Option.bind_eq_some_iff, Option.map_eq_some_iff, List.forall₂_cons_left_iff]
    constructor
    · rintro ⟨w, h, vs, h2, rfl⟩; exact ⟨w, vs, h, ih.mp h2, rfl⟩
    · rintro ⟨w, vs, h, h2, rfl⟩; exact ⟨w, h, vs, ih.mpr h2, rfl⟩

/-- One token that cannot be read spoils the text. -/
theorem readTokens_eq_none {ts : List (List Char)} {t : List Char} (h : t ∈ ts) (ht : readToken t = none) :
    readTokens ts = none := by
  induction ts with
  | nil => simp at h
  | cons u us ih =>
    rcases List.mem_cons.mp h with rfl | h
    · simp [readTokens, ht]
    · simp [readTokens, ih h]

theorem digitValue_eq_some {c : Char} {d : Nat} :
    digitValue c = some d ↔ ('0' ≤ c ∧ c ≤ '9') ∧ d = c.toNat - 48 := by
  unfold digitValue
  split_ifs with h <;> simp [h, eq_comm]

/-- Reading digits is the decimal value; anything else is none (R63). -/
theorem readDigits_eq_some {cs : List Char} {acc n : Nat} :
    readDigits cs acc = some n ↔ AllDigits cs ∧ n = cs.foldl (fun m c => 10 * m + (c.toNat - 48)) acc := by
  induction cs generalizing acc with
  | nil => simp [readDigits, AllDigits, eq_comm]
  | cons c cs ih =>
    simp only [readDigits, Option.bind_eq_some_iff, digitValue_eq_some, ih, AllDigits, List.mem_cons, forall_eq_or_imp,
      List.foldl_cons]
    constructor
    · rintro ⟨d, ⟨h, rfl⟩, h2, h3⟩; exact ⟨⟨h, h2⟩, h3⟩
    · rintro ⟨⟨h, h2⟩, h3⟩; exact ⟨_, ⟨h, rfl⟩, h2, h3⟩

theorem readNat_eq_some {cs : List Char} {n : Nat} :
    readNat cs = some n ↔ cs ≠ [] ∧ AllDigits cs ∧ n = cs.foldl (fun m c => 10 * m + (c.toNat - 48)) 0 := by
  cases cs with
  | nil => simp [readNat]
  | cons c cs => simp only [readNat, readDigits_eq_some, ne_eq, reduceCtorEq, not_false_eq_true, true_and]

theorem isBlank_iff {c : Char} : isBlank c = true ↔ c = ' ' ∨ c = '\t' ∨ c = '\r' ∨ c = '\n' := by
  simp [isBlank, or_assoc]

theorem dropWhile_blanks {b cs : List Char} (hb : ∀ a ∈ b, isBlank a = true) (hc : ∀ a, cs.head? = some a → isBlank a = false) :
    (b ++ cs).dropWhile isBlank = cs := by
  rw [List.dropWhile_append_of_pos hb]
  cases cs with
  | nil => rfl
  | cons c cs => rw [List.dropWhile_cons_of_neg]; simpa using hc c rfl

/-- Trimming takes the blanks at both ends, and nothing else (R63). -/
theorem trimBlanks_append {b cs c : List Char} (hb : ∀ a ∈ b, isBlank a = true) (hc : ∀ a ∈ c, isBlank a = true)
    (hs : ∀ a, cs.head? = some a → isBlank a = false) (he : ∀ a, cs.getLast? = some a → isBlank a = false)
    (hn : cs ≠ []) : trimBlanks (b ++ cs ++ c) = cs := by
  have h1 : (b ++ (cs ++ c)).dropWhile isBlank = cs ++ c := by
    apply dropWhile_blanks hb
    cases cs with
    | nil => exact absurd rfl hn
    | cons x xs => simpa using hs
  unfold trimBlanks
  rw [List.append_assoc, h1, List.reverse_append, dropWhile_blanks (by simpa using hc) (by simpa using he),
    List.reverse_reverse]

/-- A text is its trimmed form between blanks. -/
theorem exists_trimBlanks (t : List Char) : ∃ b c : List Char, (∀ a ∈ b, isBlank a = true) ∧ (∀ a ∈ c, isBlank a = true) ∧
    t = b ++ trimBlanks t ++ c := by
  refine ⟨t.takeWhile isBlank, ((t.dropWhile isBlank).reverse.takeWhile isBlank).reverse, ?_, ?_, ?_⟩
  · intro a h; exact List.mem_takeWhile_imp h
  · intro a h; exact List.mem_takeWhile_imp (List.mem_reverse.mp h)
  · unfold trimBlanks
    rw [List.append_assoc, ← List.reverse_append, List.takeWhile_append_dropWhile, List.reverse_reverse,
      List.takeWhile_append_dropWhile]

end Sys2Proof.Machine
end

