-- ==== Sys2Proof/Laws/Queues.lean ====
section
/-!
SUPPORT. Operand resolution, arithmetic and jumps neither read nor write the queues (10_state.md R18, R19): run on a
state with other queues they do the same and leave those queues.
-/

namespace Sys2Proof.Machine

/-- The state with other queues. -/
def withQueues (q o : List Word) (s : State) : State := { s with inq := q, out := o }

/-- The answer of a resolution with other queues in its state. -/
def answerWithQueues {α : Type} (q o : List Word) : Except Abort (α × State) → Except Abort (α × State)
  | .ok r => .ok (r.1, withQueues q o r.2)
  | .error e => .error e

/-- The end of a pseudocode with other queues in its state. -/
def endWithQueues (q o : List Word) : Except Abort State → Except Abort State
  | .ok t => .ok (withQueues q o t)
  | .error e => .error e

theorem withQueues_self (s : State) : withQueues s.inq s.out s = s := rfl

theorem Grown.withQueues_eq {s g : State} (h : Grown s g) : withQueues s.inq s.out g = g := by
  rw [h.2.2]; rfl

section
variable (q o : List Word)

theorem memRead_withQueues (a : Nat) (s : State) :
    memRead a (withQueues q o s) = answerWithQueues q o (memRead a s) := by
  unfold memRead withQueues answerWithQueues raise
  simp only
  split_ifs <;> rfl

theorem readAddress_withQueues (a : Int) (s : State) :
    readAddress a (withQueues q o s) = answerWithQueues q o (readAddress a s) := by
  unfold readAddress
  split_ifs
  · rfl
  · exact memRead_withQueues ..

theorem targetAddress_withQueues (a : Int) (s : State) :
    targetAddress a (withQueues q o s) = answerWithQueues q o (targetAddress a s) := by
  unfold targetAddress withQueues answerWithQueues raise
  simp only
  split_ifs <;> rfl

theorem readOperand_withQueues (i : Nat) (op : Operand) (s : State) :
    readOperand i op (withQueues q o s) = answerWithQueues q o (readOperand i op s) := by
  unfold readOperand
  rw [show (withQueues q o s).pc = s.pc from rfl, show (withQueues q o s).rb = s.rb from rfl, memRead_withQueues]
  cases memRead (s.pc.toNat + i) s with
  | error e => rfl
  | ok r =>
    cases hm : op.mode <;> simp only [bind, Except.bind, answerWithQueues] <;>
      first | exact readAddress_withQueues .. | rfl

theorem writeOperand_withQueues (i : Nat) (op : Operand) (s : State) :
    writeOperand i op (withQueues q o s) = answerWithQueues q o (writeOperand i op s) := by
  unfold writeOperand
  rw [show (withQueues q o s).pc = s.pc from rfl, show (withQueues q o s).rb = s.rb from rfl, memRead_withQueues]
  cases memRead (s.pc.toNat + i) s with
  | error e => rfl
  | ok r =>
    cases hm : op.mode <;> simp only [bind, Except.bind, answerWithQueues] <;>
      first | exact targetAddress_withQueues .. | rfl

theorem fetchWord_withQueues (x : Nat) (s : State) :
    fetchWord x (withQueues q o s) = endWithQueues q o (fetchWord x s) := by
  unfold fetchWord
  rw [show (withQueues q o s).pc = s.pc from rfl, show (withQueues q o s).cfg = s.cfg from rfl, memRead_withQueues]
  cases memRead s.pc.toNat s with
  | error e => rfl
  | ok r =>
    simp only [bind, Except.bind, answerWithQueues]
    split_ifs <;> rfl

theorem resolveR_withQueues (x : Nat) (a : Operand) (s : State) :
    resolveR x a (withQueues q o s) = answerWithQueues q o (resolveR x a s) := by
  unfold resolveR
  rw [fetchWord_withQueues]
  cases fetchWord x s with
  | error e => rfl
  | ok r => exact readOperand_withQueues ..

theorem resolveW_withQueues (x : Nat) (a : Operand) (s : State) :
    resolveW x a (withQueues q o s) = answerWithQueues q o (resolveW x a s) := by
  unfold resolveW
  rw [fetchWord_withQueues]
  cases fetchWord x s with
  | error e => rfl
  | ok r => exact writeOperand_withQueues ..

theorem resolveRR_withQueues (x : Nat) (a b : Operand) (s : State) :
    resolveRR x a b (withQueues q o s) =
      (resolveRR x a b s).map fun r => (r.1, r.2.1, withQueues q o r.2.2) := by
  unfold resolveRR
  rw [resolveR_withQueues]
  cases resolveR x a s with
  | error e => rfl
  | ok r =>
    simp only [bind, Except.bind, answerWithQueues]
    rw [readOperand_withQueues]
    cases readOperand 2 b r.2 <;> rfl

theorem resolveRRW_withQueues (x : Nat) (a b t : Operand) (s : State) :
    resolveRRW x a b t (withQueues q o s) =
      (resolveRRW x a b t s).map fun r => (r.1, r.2.1, r.2.2.1, withQueues q o r.2.2.2) := by
  unfold resolveRRW
  rw [resolveRR_withQueues]
  cases resolveRR x a b s with
  | error e => rfl
  | ok r =>
    simp only [bind, Except.bind, Except.map]
    rw [writeOperand_withQueues]
    cases writeOperand 3 t r.2.2 <;> rfl

theorem memWrite_withQueues (a : Nat) (v : Word) (s : State) :
    memWrite a v (withQueues q o s) = endWithQueues q o (memWrite a v s) := by
  unfold memWrite withQueues endWithQueues raise
  simp only
  split_ifs <;> rfl

theorem runRRW_withQueues (alu : Config → Word → Word → Except Abort Word) (x : Nat) (a b t : Operand) (s : State) :
    runRRW alu x a b t (withQueues q o s) = endWithQueues q o (runRRW alu x a b t s) := by
  unfold runRRW
  rw [resolveRRW_withQueues]
  cases resolveRRW x a b t s with
  | error e => rfl
  | ok r =>
    simp only [bind, Except.bind, Except.map]
    rw [show (withQueues q o s).cfg = s.cfg from rfl]
    cases alu s.cfg r.1 r.2.1 with
    | error e => rfl
    | ok v =>
      simp only [memWrite_withQueues]
      cases memWrite r.2.2.1 v r.2.2.2 <;> rfl

theorem runJump_withQueues (p : Word → Bool) (x : Nat) (a b : Operand) (s : State) :
    runJump p x a b (withQueues q o s) = endWithQueues q o (runJump p x a b s) := by
  unfold runJump
  rw [resolveRR_withQueues]
  cases resolveRR x a b s with
  | error e => rfl
  | ok r =>
    simp only [bind, Except.bind, Except.map, raise]
    split_ifs <;> rfl

/-- An instruction that is neither Input nor Output does the same whatever the queues hold, and leaves them. -/
theorem body_withQueues {i : Instr} (hi : ∀ x op, i ≠ .input x op) (ho : ∀ x op, i ≠ .output x op) (s : State) :
    body i (withQueues q o s) = endWithQueues q o (body i s) := by
  cases i with
  | input x op => exact absurd rfl (hi x op)
  | output x op => exact absurd rfl (ho x op)
  | add | multiply | lessThan | equals => simp only [body, runRRW_withQueues]
  | jumpIfTrue | jumpIfFalse => simp only [body, runJump_withQueues]
  | adjustRelativeBase x a =>
    simp only [body]
    rw [resolveR_withQueues]
    cases resolveR x a s with
    | error e => rfl
    | ok r =>
      simp only [bind, Except.bind, answerWithQueues]
      rw [show (withQueues q o s).cfg = s.cfg from rfl, show (withQueues q o s).rb = s.rb from rfl]
      cases chk64 s.cfg (s.rb.toInt + r.1.toInt) <;> rfl
  | halt x =>
    simp only [body]
    rw [fetchWord_withQueues]
    cases fetchWord x s <;> rfl

end

end Sys2Proof.Machine
end

