-- ==== Sys2Proof/Tests/Slice0.lean ====
section
/-!
SUPPORT. The model's own tests: decoding of words written out from R51 and R64, ill-formed terms that WellFormed
refuses, single steps with the results 95_test_vectors.md lists, and a witness for every statement with hypotheses.
-/

namespace Sys2Proof.Tests

open Sys2Proof.Machine Sys2Proof.Statements

def cellsOf (l : List Int) : List Word := l.map wrap64

/-- A machine with this program, relative base and queue. -/
def machineWith (cfg : Config) (program : List Int) (rb : Int) (inq : List Int) : State :=
  { State.reset with cfg := cfg, mem := Memory.place ⟨[], 0⟩ 0 (cellsOf program), rb := wrap64 rb, inq := cellsOf inq }

def machine (program : List Int) : State := machineWith Config.standard program 0 []

def wrapping : Config := { Config.standard with overflow := .wrap }

def strict : Config := { Config.standard with excess := .fault }

def sized (n : Fin (2 ^ 63 + 1)) : Config := { Config.standard with memMax := n }

/-- The state after one step. -/
def after (s : State) : Option State :=
  match step s with
  | .next t => some t
  | .fault _ => none
  | .refused _ => none

/-- The fault record after one step, as 95_test_vectors.md writes it: kind, value, pc, word. -/
def faultAfter (s : State) : Option (FaultKind × Int × Nat × Int) :=
  (after s).bind fun t => t.fault.map fun r => (r.kind, r.value, r.pc.toNat, r.word.toInt)

/-! ## Words of each family, from R51, R53 and R64 -/

theorem test_decode_add :
    decode 21101 7 0 0 = .ok (.add 0 ⟨.immediate, 7⟩ ⟨.immediate, 0⟩ ⟨.relative, 0⟩) := by decide
theorem test_decode_multiply : decode 1102 (-3) 4 0 = .ok (.multiply 0 ⟨.immediate, -3⟩ ⟨.immediate, 4⟩ ⟨.absolute, 0⟩) := by
  decide
theorem test_decode_input : decode 3 5 0 0 = .ok (.input 0 ⟨.absolute, 5⟩) := by decide
theorem test_decode_output_excess : decode 21104 5 0 0 = .ok (.output 21 ⟨.immediate, 5⟩) := by decide
theorem test_decode_jumpIfTrue : decode 1005 31 6 0 = .ok (.jumpIfTrue 0 ⟨.absolute, 31⟩ ⟨.immediate, 6⟩) := by decide
theorem test_decode_jumpIfFalse : decode 2106 0 0 0 = .ok (.jumpIfFalse 0 ⟨.immediate, 0⟩ ⟨.relative, 0⟩) := by decide
theorem test_decode_lessThan : decode 1107 3 5 9 = .ok (.lessThan 0 ⟨.immediate, 3⟩ ⟨.immediate, 5⟩ ⟨.absolute, 9⟩) := by decide
theorem test_decode_equals : decode 1008 100 16 101 =
    .ok (.equals 0 ⟨.absolute, 100⟩ ⟨.immediate, 16⟩ ⟨.absolute, 101⟩) := by decide
theorem test_decode_adjust : decode 209 3 0 0 = .ok (.adjustRelativeBase 0 ⟨.relative, 3⟩) := by decide
theorem test_decode_halt_excess : decode 1199 0 0 0 = .ok (.halt 11) := by decide
theorem test_decode_reserved_mode : decode 301 0 0 0 =
    .ok (.add 0 ⟨.reserved 0, 0⟩ ⟨.absolute, 0⟩ ⟨.absolute, 0⟩) := by decide
theorem test_decode_rejects : decode 98 0 0 0 = .error (.unknownOpcode 98) ∧ decode 100 0 0 0 = .error (.unknownOpcode 0) ∧
    decode (-99) 0 0 0 = .error (.negativeWord (-99)) := by decide
theorem test_encode_multiply :
    encode (.multiply 0 ⟨.relative, -1⟩ ⟨.relative, 0⟩ ⟨.relative, 1⟩) = cellsOf [22202, -1, 0, 1] := by decide
theorem test_decodeTableWord_output : decodeTableWord 8 4 = some (.output 0 ⟨.absolute, 0⟩) := by decide
theorem test_listing : listInstr (.output 0 ⟨.relative, -1⟩) = some "Output [rb-1]".toList := by decide
theorem test_program_text :
    parseProgram " 104 , -5 ,99\n".toList = .ok (cellsOf [104, -5, 99]) ∧
      parseProgram "1,,2".toList = .error .parseError ∧
      serializeProgram (cellsOf [1, 0, 0, 0, 99]) = "1,0,0,0,99".toList := by decide

/-! ## Ill-formed terms, one for each check -/

theorem test_wellFormed : (Instr.add 0 ⟨.immediate, 7⟩ ⟨.relative, 0⟩ ⟨.absolute, 0⟩).wellFormed = true := by decide
theorem test_illFormed_immediate_target : (Instr.input 0 ⟨.immediate, 5⟩).wellFormed = false := by decide
theorem test_illFormed_reserved_target : (Instr.input 0 ⟨.reserved 6, 5⟩).wellFormed = false := by decide
theorem test_illFormed_reserved_read : (Instr.output 0 ⟨.reserved 0, 0⟩).wellFormed = false := by decide
theorem test_illFormed_excess : (Instr.halt (2 ^ 63 / 100 + 1)).wellFormed = false := by decide

/-! ## Single steps, from 95_test_vectors.md section 2 -/

/-- V-A3: source and target the same cell. -/
theorem test_add_same_cell : (after (machine [1, 4, 4, 4, 7])).map (fun t => ((t.mem.read 4).toInt, t.pc.toNat)) =
    some (14, 4) := by decide
/-- V-A4: relative read beyond `len`, relative target. -/
theorem test_add_relative : (after (machineWith Config.standard [21201, 2, 5, 3] 10 [])).map
    (fun t => ((t.mem.read 13).toInt, t.mem.len)) = some (5, 14) := by decide
/-- V-M8 and V-M9: overflow under each policy. -/
theorem test_multiply_overflow : faultAfter (machine [1102, 3037000500, 3037000500, 0]) =
    some (.arithmeticOverflow, -9223372036709301616, 0, 1102) := by decide
theorem test_multiply_wraps : (after (machineWith wrapping [1102, 4294967296, 4294967296, 0] 0 [])).map
    (fun t => (t.mem.read 0).toInt) = some 0 := by decide
/-- V-I5: the front element, a relative target. -/
theorem test_input_front : (after (machineWith Config.standard [203, -1] 3 [7, 8])).map
    (fun t => ((t.mem.read 2).toInt, t.inq, t.pc.toNat, t.mem.len)) = some (7, cellsOf [8], 2, 3) := by decide
/-- V-I2: suspension changes nothing but the status. -/
theorem test_input_suspends : after (machine [3, 5]) = some { machine [3, 5] with status := .awaitingInput } := by decide
/-- V-O4: output of a cell that does not exist yet. -/
theorem test_output_beyond : (after (machine [4, 10])).map (fun t => (t.out, t.mem.len)) = some ([0], 11) := by decide
/-- V-O7: excess digits under the strict parameter. -/
theorem test_output_excess_fault : faultAfter (machineWith strict [21104, 5] 0 []) =
    some (.invalidAddressMode, 21, 0, 21104) := by decide
/-- V-J3 and V-J7. -/
theorem test_jumpIfTrue_negative_condition : (after (machine [1105, -1, 7])).map (fun t => t.pc.toNat) = some 7 := by decide
theorem test_jumpIfTrue_negative_target : faultAfter (machine [1105, 1, -4]) =
    some (.negativeJumpTarget, -4, 0, 1105) := by decide
/-- V-J5, and the loop branch of R81's worked example. -/
theorem test_jumpIfFalse_not_taken : (after (machine [1106, 5, 7])).map (fun t => t.pc.toNat) = some 3 := by decide
theorem test_jumpIfFalse_taken : (after (machine [1006, 3, 9, 0])).map (fun t => t.pc.toNat) = some 9 := by decide
/-- V-CMP6: no overflow in the comparison. -/
theorem test_lessThan_extremes : (after (machine [1107, 9223372036854775807, -9223372036854775808, 0])).map
    (fun t => (t.mem.read 0).toInt) = some 0 := by decide
/-- V-CMP4. -/
theorem test_lessThan_signed : (after (machine [1107, -1, 0, 5])).map (fun t => (t.mem.read 5).toInt) = some 1 := by decide
/-- V-CMP9. -/
theorem test_equals_own_word : (after (machine [8, 0, 0, 0])).map (fun t => (t.mem.read 0).toInt) = some 1 := by decide
/-- V-R4: the operand is read with the old base. -/
theorem test_adjust_old_base : (after (machineWith Config.standard [209, 1, 0, 0, 0, 33] 4 [])).map
    (fun t => t.rb.toInt) = some 37 := by decide
/-- V-R7. -/
theorem test_adjust_wraps : (after (machineWith wrapping [109, 1] 9223372036854775807 [])).map
    (fun t => t.rb.toInt) = some (-9223372036854775808) := by decide
/-- V-H3. -/
theorem test_halt_excess : (after (machine [10099])).map (fun t => (t.halted, t.status, t.pc.toNat)) =
    some (true, .halted, 1) := by decide
/-- V-A11: operand 1 is resolved before operand 3's mode is looked at. -/
theorem test_fault_order : faultAfter (machine [10001, -5, 0, 0]) = some (.negativeAddress, -5, 0, 10001) := by decide
/-- V-A19: the fetch of `P[3]` beyond MEM_MAX. -/
theorem test_parameter_fetch_fault : faultAfter (machineWith (sized 3) [1101, 1, 1] 0 []) =
    some (.memoryExhausted, 3, 0, 1101) := by decide
/-- V-A20: the exact sum. -/
theorem test_relative_sum_is_exact : faultAfter (machineWith Config.standard [2201, 9223372036854775807, 0, 0] 9223372036854775807 []) =
    some (.memoryExhausted, 18446744073709551614, 0, 2201) := by decide
/-- V-DEC2: the empty program, which is the reset state. -/
theorem test_reset_step : faultAfter State.reset = some (.unknownOpcode, 0, 0, 0) := by decide
/-- The host's placement of an instruction is what the next step runs. -/
theorem test_withFetchWord : (after (State.reset.withFetchWord 8 99)).map (fun t => t.status) = some .halted := by decide
/-- S2 and R110: the fresh value, then Halted, then AlreadyHalted. -/
theorem test_run_to_next_output : (run .nextOutput 3 (machineWith Config.standard [3, 0, 4, 0, 99] 0 [42])).map
    (fun r => (r.1, r.2.pc.toNat)) = some (.output 42, 4) := by decide

/-! ## Witnesses: states and operands that meet the hypotheses of each statement, clause by clause -/

theorem readsAs_immediate (s : State) (w : Word) : ReadsAs s ⟨.immediate, w⟩ w := .inl ⟨rfl, rfl⟩

theorem readsAs_cell {s : State} {o : Operand} {n : Nat} {v : Word} (h : NamesCell s o n) (hv : v = s.mem.read n) :
    ReadsAs s o v := .inr ⟨n, h, hv⟩

/-- A machine in another status. -/
def inStatus (st : Status) (s : State) : State := { s with status := st }

/-- A machine that Halt has stopped, with an output. -/
def halted : State := { machine [99] with halted := true, status := .halted, pc := 1, out := [5] }

/-- A machine that a fault has stopped. -/
def faulted : State := { machine [0] with status := .faulted, fault := some ⟨.unknownOpcode, 0, 0, 0⟩ }

theorem witness_DecodeOfEncode : (Instr.halt (2 ^ 63 / 100 - 1)).encodable = true ∧
    (Instr.add 3 ⟨.reserved 6, -1⟩ ⟨.relative, 5⟩ ⟨.immediate, 2⟩).encodable = true := by decide

theorem witness_EncodeOfDecode : ∃ i, decode 9223372036854775799 1 2 3 = .ok i := ⟨_, rfl⟩

theorem witness_LengthIsTold :
    decodeAt (machine [1002, 4, 3, 4, 33]) = .ok (.multiply 0 ⟨.absolute, 4⟩ ⟨.immediate, 3⟩ ⟨.absolute, 4⟩) ∧
    0 ≤ (9223372036854775802 : Word).toInt ∧ (9223372036854775802 : Word).toNat % 100 = 1002 % 100 ∧
    ∃ t, exec (.multiply 0 ⟨.absolute, 4⟩ ⟨.immediate, 3⟩ ⟨.absolute, 4⟩) (machine [1002, 4, 3, 4, 33]) = .next t := by
  exact ⟨by decide, by decide, by decide, _, rfl⟩

theorem witness_StepRuns_running : Live (machine [99]) ∧ (machine [99]).pc.toNat < (machine [99]).cfg.memMax.val ∧
    decodeAt (machine [99]) = .ok (.halt 0) := ⟨.inl rfl, by decide, rfl⟩

theorem witness_StepRuns : Live (inStatus .awaitingInput (machine [3, 5])) ∧
    (inStatus .awaitingInput (machine [3, 5])).pc.toNat < (inStatus .awaitingInput (machine [3, 5])).cfg.memMax.val ∧
    decodeAt (inStatus .awaitingInput (machine [3, 5])) = .ok (.input 0 ⟨.absolute, 5⟩) := ⟨.inr rfl, by decide, rfl⟩

theorem witness_UnknownWord : Live (machine [-1]) ∧ (machine [-1]).pc.toNat < (machine [-1]).cfg.memMax.val ∧
    ((machine [-1]).mem.read (machine [-1]).pc.toNat).toInt < 0 ∧
    Live (machine []) ∧ (machine []).pc.toNat < (machine []).cfg.memMax.val ∧
    0 ≤ ((machine []).mem.read (machine []).pc.toNat).toInt ∧
    ¬isOpcode (((machine []).mem.read (machine []).pc.toNat).toNat % 100) :=
  ⟨.inl rfl, by decide, by decide, .inl rfl, by decide, by decide, by unfold isOpcode; decide⟩

theorem witness_FetchBeyondMemory : Live (machineWith (sized 0) [] 0 []) ∧
    (machineWith (sized 0) [] 0 []).cfg.memMax.val ≤ (machineWith (sized 0) [] 0 []).pc.toNat := ⟨.inl rfl, by decide⟩

theorem witness_StoredInstruction : (machine [1, 2]).mem.wf = true ∧ Live (machine [1, 2]) ∧
    (machine [1, 2]).pc.toNat < (machine [1, 2]).cfg.memMax.val ∧
    (Instr.add 92233720368546 ⟨.relative, 5⟩ ⟨.immediate, 0⟩ ⟨.absolute, -1⟩).encodable = true :=
  ⟨by decide, .inl rfl, by decide, by decide⟩

/-- Every case of R138's order: the fetch, the excess, a parameter fetch, a mode, a write target's mode, the two signs,
the two bounds. -/
theorem witness_DecodeFaults :
    decodeFault (machineWith (sized 0) [] 0 []) (.halt 0) = some (.memoryExhausted, 0) ∧
    decodeFault (machineWith strict [] 0 []) (.halt 1) = some (.invalidAddressMode, 1) ∧
    decodeFault (machineWith (sized 1) [] 0 []) (.output 0 ⟨.immediate, 5⟩) = some (.memoryExhausted, 1) ∧
    decodeFault (machine []) (.output 0 ⟨.reserved 6, 5⟩) = some (.invalidAddressMode, 9) ∧
    decodeFault (machine []) (.input 0 ⟨.immediate, 5⟩) = some (.invalidAddressMode, 1) ∧
    decodeFault (machine []) (.input 0 ⟨.absolute, -1⟩) = some (.negativeAddress, -1) ∧
    decodeFault (machineWith Config.standard [] (-6) []) (.jumpIfTrue 0 ⟨.immediate, 0⟩ ⟨.relative, 5⟩) =
      some (.negativeAddress, -1) ∧
    decodeFault (machine []) (.jumpIfFalse 0 ⟨.immediate, 0⟩ ⟨.reserved 0, 5⟩) = some (.invalidAddressMode, 3) ∧
    decodeFault (machineWith (sized 5) [] 0 []) (.input 0 ⟨.absolute, 5⟩) = some (.memoryExhausted, 5) ∧
    decodeFault (machineWith Config.standard [] 1 []) (.output 0 ⟨.relative, 9223372036854775807⟩) =
      some (.memoryExhausted, 9223372036854775808) := by decide

theorem witness_WithoutDecodeFault : decodeFault (machineWith (sized 6) [] 1 [])
    (.equals 0 ⟨.relative, -1⟩ ⟨.absolute, 5⟩ ⟨.relative, 4⟩) = none := by decide

/-- The last clause: without a decode fault, a fault of dispatch of each kind. -/
theorem witness_WithoutDecodeFault_dispatch : (machine []).status ≠ .faulted ∧
    decodeFault (machine []) (.add 0 ⟨.immediate, 9223372036854775807⟩ ⟨.immediate, 1⟩ ⟨.absolute, 0⟩) = none ∧
    (∃ t, exec (.add 0 ⟨.immediate, 9223372036854775807⟩ ⟨.immediate, 1⟩ ⟨.absolute, 0⟩) (machine []) = .next t ∧
      t.status = .faulted) ∧
    decodeFault (machine []) (.jumpIfFalse 0 ⟨.immediate, 0⟩ ⟨.immediate, -1⟩) = none ∧
    ∃ t, exec (.jumpIfFalse 0 ⟨.immediate, 0⟩ ⟨.immediate, -1⟩) (machine []) = .next t ∧ t.status = .faulted :=
  ⟨by decide, by decide, ⟨_, rfl, by decide⟩, by decide, _, rfl, by decide⟩

theorem witness_AbandonedInstruction :
    (∃ t, exec (.jumpIfFalse 0 ⟨.immediate, 0⟩ ⟨.immediate, -1⟩) (machine [1106, 0, -1]) = .next t ∧
      t.status ≠ (machine [1106, 0, -1]).status ∧ t.status = .faulted) ∧
    ∃ t, exec (.input 0 ⟨.absolute, 5⟩) (machine [3, 5]) = .next t ∧
      t.status ≠ (machine [3, 5]).status ∧ t.status = .awaitingInput :=
  ⟨⟨_, rfl, by decide, by decide⟩, _, rfl, by decide, by decide⟩

/-- In range at INT_MAX, a relative target at the last address; then wrapped. -/
theorem witness_AddStores :
    (let s := machineWith (sized 8) [1, 2, 3, 4, 5, 6, 7, 8] (-1) []
     s.mem.wf = true ∧ CanRun s 3 4 ∧ ReadsAs s ⟨.immediate, 9223372036854775799⟩ 9223372036854775799 ∧
       ReadsAs s ⟨.absolute, 7⟩ 8 ∧ NamesCell s ⟨.relative, 8⟩ 7 ∧
       Checked s.cfg ((9223372036854775799 : Word).toInt + (8 : Word).toInt) 9223372036854775807) ∧
    Checked wrapping ((9223372036854775807 : Word).toInt + (1 : Word).toInt) (-9223372036854775808) :=
  ⟨⟨by decide, ⟨by decide, .inl rfl⟩, readsAs_immediate _ _,
      readsAs_cell (n := 7) (by unfold NamesCell; decide) (by decide), by unfold NamesCell; decide,
      .inl ⟨by unfold InRange; decide, by decide⟩⟩,
    .inr ⟨by unfold InRange; decide, rfl, -1, by decide⟩⟩

theorem witness_AddOverflows :
    let s := machine [1]
    CanRun s 0 4 ∧ ReadsAs s ⟨.immediate, 9223372036854775807⟩ 9223372036854775807 ∧ ReadsAs s ⟨.absolute, 0⟩ 1 ∧
      NamesCell s ⟨.absolute, 0⟩ 0 ∧ Overflows s.cfg ((9223372036854775807 : Word).toInt + (1 : Word).toInt) ∧
      WrapsTo ((9223372036854775807 : Word).toInt + (1 : Word).toInt) (-9223372036854775808) :=
  ⟨⟨by decide, .inl rfl⟩, readsAs_immediate _ _, readsAs_cell (n := 0) (by unfold NamesCell; decide) (by decide),
    by unfold NamesCell; decide, ⟨by unfold InRange; decide, rfl⟩, by unfold InRange; decide, -1, by decide⟩

theorem witness_MultiplyStores :
    (let s := machineWith strict [1, 2, 3, 4, 5, 6, 7, 8] (-1) []
     s.mem.wf = true ∧ CanRun s 0 4 ∧ ReadsAs s ⟨.immediate, -4611686018427387904⟩ (-4611686018427387904) ∧
       ReadsAs s ⟨.relative, 2⟩ 2 ∧ NamesCell s ⟨.absolute, 9223372036854775807⟩ 9223372036854775807 ∧
       Checked s.cfg ((-4611686018427387904 : Word).toInt * (2 : Word).toInt) (-9223372036854775808)) ∧
    Checked wrapping ((-9223372036854775808 : Word).toInt * (-1 : Word).toInt) (-9223372036854775808) :=
  ⟨⟨by decide, ⟨by decide, .inr rfl⟩, readsAs_immediate _ _,
      readsAs_cell (n := 1) (by unfold NamesCell; decide) (by decide), by unfold NamesCell; decide,
      .inl ⟨by unfold InRange; decide, by decide⟩⟩,
    .inr ⟨by unfold InRange; decide, rfl, -1, by decide⟩⟩

theorem witness_MultiplyOverflows :
    let s := machine [-1]
    CanRun s 0 4 ∧ ReadsAs s ⟨.immediate, -9223372036854775808⟩ (-9223372036854775808) ∧
      ReadsAs s ⟨.absolute, 0⟩ (-1) ∧ NamesCell s ⟨.absolute, 0⟩ 0 ∧
      Overflows s.cfg ((-9223372036854775808 : Word).toInt * (-1 : Word).toInt) ∧
      WrapsTo ((-9223372036854775808 : Word).toInt * (-1 : Word).toInt) (-9223372036854775808) :=
  ⟨⟨by decide, .inl rfl⟩, readsAs_immediate _ _, readsAs_cell (n := 0) (by unfold NamesCell; decide) (by decide),
    by unfold NamesCell; decide, ⟨by unfold InRange; decide, rfl⟩, by unfold InRange; decide, -1, by decide⟩

/-- One operand form that faults at decode, for each instruction of `RaisesOnly`, and one overflow. -/
theorem witness_RaisesOnly :
    (∃ u, exec (.add 0 ⟨.immediate, 9223372036854775807⟩ ⟨.immediate, 1⟩ ⟨.absolute, 0⟩) (machine []) = .next u ∧
      u.status = .faulted) ∧
    (∃ u, exec (.multiply 0 ⟨.immediate, 1⟩ ⟨.immediate, 1⟩ ⟨.immediate, 0⟩) (machine []) = .next u ∧
      u.status = .faulted) ∧
    (∃ u, exec (.lessThan 0 ⟨.absolute, -1⟩ ⟨.immediate, 1⟩ ⟨.absolute, 0⟩) (machine []) = .next u ∧
      u.status = .faulted) ∧
    (∃ u, exec (.equals 0 ⟨.reserved 0, 1⟩ ⟨.immediate, 1⟩ ⟨.absolute, 0⟩) (machine []) = .next u ∧
      u.status = .faulted) ∧
    (∃ u, exec (.output 0 ⟨.relative, -1⟩) (machine []) = .next u ∧ u.status = .faulted) ∧
    (∃ u, exec (.adjustRelativeBase 0 ⟨.relative, -1⟩) (machine []) = .next u ∧ u.status = .faulted) ∧
    (machine []).status ≠ .faulted :=
  ⟨⟨_, rfl, by decide⟩, ⟨_, rfl, by decide⟩, ⟨_, rfl, by decide⟩, ⟨_, rfl, by decide⟩, ⟨_, rfl, by decide⟩,
    ⟨_, rfl, by decide⟩, by decide⟩

theorem witness_NoOverflowUnderWrap : (machineWith wrapping [] 0 []).cfg.overflow = .wrap ∧
    (∃ u, exec (.add 0 ⟨.immediate, 9223372036854775807⟩ ⟨.immediate, 1⟩ ⟨.absolute, 0⟩)
      (machineWith wrapping [] 0 []) = .next u) ∧
    (∃ u, exec (.multiply 0 ⟨.immediate, 9223372036854775807⟩ ⟨.immediate, 2⟩ ⟨.absolute, 0⟩)
      (machineWith wrapping [] 0 []) = .next u) ∧
    ∃ u, exec (.adjustRelativeBase 0 ⟨.immediate, 1⟩) (machineWith wrapping [] 9223372036854775807 []) = .next u :=
  ⟨rfl, ⟨_, rfl⟩, ⟨_, rfl⟩, _, rfl⟩

/-- Serves LessThanStoresOneOrZero and EqualsStoresOneOrZero: the same hypotheses. -/
theorem witness_Compares :
    let s := machineWith (sized 4) [1, 2, 3, 4] 2 []
    s.mem.wf = true ∧ CanRun s 7 4 ∧ ReadsAs s ⟨.immediate, -9223372036854775808⟩ (-9223372036854775808) ∧
      ReadsAs s ⟨.relative, 1⟩ 4 ∧ NamesCell s ⟨.relative, -2⟩ 0 :=
  ⟨by decide, ⟨by decide, .inl rfl⟩, readsAs_immediate _ _,
    readsAs_cell (n := 3) (by unfold NamesCell; decide) (by decide), by unfold NamesCell; decide⟩

theorem witness_InputTakes :
    (let s := machineWith (sized 2) [3, 1] 0 [-9223372036854775808, 6]
     s.mem.wf = true ∧ CanRun s 0 2 ∧ NamesCell s ⟨.absolute, 1⟩ 1 ∧ s.inq = -9223372036854775808 :: [6]) ∧
    let s := machineWith (sized 2) [3, 1] 0 []
    CanRun s 0 2 ∧ NamesCell s ⟨.absolute, 1⟩ 1 ∧ s.inq = [] :=
  ⟨⟨by decide, ⟨by decide, .inl rfl⟩, by unfold NamesCell; decide, by decide⟩, ⟨by decide, .inl rfl⟩,
    by unfold NamesCell; decide, by decide⟩

theorem witness_OutputAppends : CanRun (machineWith (sized 2) [4, 1] 0 []) 0 2 ∧
    ReadsAs (machineWith (sized 2) [4, 1] 0 []) ⟨.absolute, 1⟩ 1 ∧
    (machineWith (sized 2) [4, 1] 0 []).status = .running :=
  ⟨⟨by decide, .inl rfl⟩, readsAs_cell (n := 1) (by unfold NamesCell; decide) (by decide), rfl⟩

/-- Serves both jumps: a condition that is zero and one that is not, a target at 0, at INT_MAX and below 0. -/
theorem witness_Jumps :
    let s := machineWith (sized 3) [5, 0, -1] 2 []
    CanRun s 0 3 ∧ ReadsAs s ⟨.relative, -1⟩ 0 ∧ (0 : Word).toInt = 0 ∧ ReadsAs s ⟨.absolute, 2⟩ (-1) ∧
      (-1 : Word).toInt ≠ 0 ∧ (-1 : Word).toInt < 0 ∧
      ReadsAs s ⟨.immediate, 9223372036854775807⟩ 9223372036854775807 ∧ 0 ≤ (9223372036854775807 : Word).toInt ∧
      0 ≤ (0 : Word).toInt :=
  ⟨⟨by decide, .inl rfl⟩, readsAs_cell (n := 1) (by unfold NamesCell; decide) (by decide), by decide,
    readsAs_cell (n := 2) (by unfold NamesCell; decide) (by decide), by decide, by decide, readsAs_immediate _ _,
    by decide, by decide⟩

theorem witness_AdjustAdds :
    (let s := machineWith (sized 2) [209, -3] 4 []
     CanRun s 0 2 ∧ ReadsAs s ⟨.relative, -3⟩ (-3) ∧ Checked s.cfg (s.rb.toInt + (-3 : Word).toInt) 1) ∧
    let s := machineWith Config.standard [109, -1] (-9223372036854775808) []
    CanRun s 0 2 ∧ ReadsAs s ⟨.immediate, -1⟩ (-1) ∧ Overflows s.cfg (s.rb.toInt + (-1 : Word).toInt) ∧
      WrapsTo (s.rb.toInt + (-1 : Word).toInt) 9223372036854775807 :=
  ⟨⟨⟨by decide, .inl rfl⟩, readsAs_cell (n := 1) (by unfold NamesCell; decide) (by decide),
      .inl ⟨by unfold InRange; decide, by decide⟩⟩, ⟨by decide, .inl rfl⟩, readsAs_immediate _ _,
    ⟨by unfold InRange; decide, rfl⟩, by unfold InRange; decide, 1, by decide⟩

theorem witness_HaltSets : CanRun (machineWith (sized 1) [99] 0 []) 100 1 := ⟨by decide, .inl rfl⟩

/-- The cell after the target keeps its value: the hypothesis on `a` holds there. -/
theorem witness_OnlyTheTargetChanges :
    let s := machine [1101, 1, 2, 3]
    s.mem.wf = true ∧ (∃ t, exec (.add 0 ⟨.immediate, 1⟩ ⟨.immediate, 2⟩ ⟨.absolute, 3⟩) s = .next t) ∧
      ∀ o ∈ (Instr.add 0 ⟨.immediate, 1⟩ ⟨.immediate, 2⟩ ⟨.absolute, 3⟩).operands, o.1 = .write → ¬NamesCell s o.2 4 :=
  ⟨by decide, ⟨_, rfl⟩, by unfold NamesCell; decide⟩

theorem witness_OnlyJumpsRedirect :
    ∃ t, exec (.jumpIfTrue 0 ⟨.immediate, 1⟩ ⟨.immediate, 7⟩) (machine [1105, 1, 7]) = .next t := ⟨_, rfl⟩

theorem witness_OnlyAdjustWritesRb :
    (∃ t, exec (.input 0 ⟨.relative, 1⟩) (machineWith Config.standard [203, 1] 9 [4]) = .next t) ∧
    (∀ x a, Instr.input 0 ⟨.relative, 1⟩ ≠ .adjustRelativeBase x a) ∧
    ∃ s, newMachine (sized 2) (cellsOf [109, 5]) = .ok s := ⟨⟨_, rfl⟩, (by intros; simp), _, rfl⟩

theorem witness_InputQueue :
    (∃ t, exec (.output 0 ⟨.immediate, 1⟩) (machineWith Config.standard [104, 1] 0 [7]) = .next t) ∧
    (∀ x o, Instr.output 0 ⟨.immediate, 1⟩ ≠ .input x o) ∧
    (machineWith Config.standard [3, 1] 0 [7, 8]).inq = 7 :: [8] ∧
    ∃ t, exec (.input 0 ⟨.absolute, 1⟩) (machineWith Config.standard [3, 1] 0 [7, 8]) = .next t ∧
      t.status ≠ .faulted := ⟨⟨_, rfl⟩, (by intros; simp), by decide, _, rfl, by decide⟩

theorem witness_OutputSequence :
    (∃ t, exec (.output 0 ⟨.immediate, 1⟩) (machine [104, 1]) = .next t) ∧
    ∃ r s', transact 2 .runToHalt (machine [104, 1, 99]) = some (r, s') := ⟨⟨_, rfl⟩, _, _, rfl⟩

theorem witness_HaltedFlag :
    (∃ t, step (machine [99]) = .next t ∧ (machine [99]).halted = false ∧ t.halted = true) ∧
    (∃ t, step halted = .next t) ∧ halted.Inv ∧ halted.halted = true :=
  ⟨⟨_, rfl, rfl, rfl⟩, ⟨_, rfl⟩, by decide, rfl⟩

theorem witness_ReadsGrow :
    (machineWith (sized 4) [1, 2] 0 []).mem.wf = true ∧ 3 < (machineWith (sized 4) [1, 2] 0 []).cfg.memMax.val ∧
    (machineWith (sized 4) [1, 2] 0 []).cfg.memMax.val ≤ 4 ∧
    ∃ d t, transact 0 .dumpMemory (machineWith (sized 4) [1, 2] 0 []) = some (d, t) :=
  ⟨by decide, by decide, by decide, _, _, rfl⟩

theorem witness_GrowthPreserves :
    (∃ t, exec (.output 0 ⟨.absolute, 100⟩) (machine [4, 100]) = .next t) ∧
    (machine [4, 100]).mem.wf = true ∧ (5 : Nat) < 6 ∧ ∃ s1 u s2, memWrite 5 (-1) (machine [4, 100]) = .ok s1 ∧
      memRead 6 s1 = .ok (u, s2) := ⟨⟨_, rfl⟩, by decide, by decide, _, _, _, rfl, rfl⟩

theorem witness_NewMachine : (cellsOf [104, 5]).length ≤ (sized 2).memMax.val ∧
    (sized 1).memMax.val < (cellsOf [104, 5]).length := by decide

theorem witness_StepKeepsTheInvariant :
    (machine [3, 5]).Inv ∧ (∃ t, step (machine [3, 5]) = .next t) ∧ faulted.Inv ∧ ∃ t, step faulted = .next t :=
  ⟨by decide, ⟨_, rfl⟩, by decide, _, rfl⟩

/-- Serves HostCallsKeepTheInvariant and HistoryIsNeverUndone. -/
theorem witness_HostCalls :
    (∀ s ∈ [machine [104, 5, 99], halted], s.Inv) ∧
    (∃ r g, fleetCall 2 (.on 0 .runToHalt) [machine [104, 5, 99], halted] = some (r, g)) ∧
    [machine [104, 5, 99], halted][1]? = some halted ∧ halted.halted = true ∧ halted.Over ∧ faulted.Over :=
  ⟨by decide, ⟨_, _, rfl⟩, rfl, rfl, .inl rfl, .inr rfl⟩

theorem witness_Terminal : halted.status = .halted ∧ faulted.status = .faulted ∧ halted.Over ∧ faulted.Over :=
  ⟨rfl, rfl, .inl rfl, .inr rfl⟩

theorem witness_AwaitingInput : ∃ t, step (machine [3, 5]) = .next t ∧ t.status = .awaitingInput := ⟨_, rfl, rfl⟩

theorem witness_RunCall : Live (machine [1101, 1, 1, 0, 99]) ∧ Live (inStatus .awaitingInput (machine [3, 0])) :=
  ⟨.inl rfl, .inr rfl⟩

theorem witness_Fuel : ∃ r s', transact 2 (.runToNextOutputN 1) (machine [104, 7, 99]) = some (r, s') := ⟨_, _, rfl⟩

theorem witness_RunToInput : ∃ r s', run .toInput 2 (machine [104, 7, 99]) = some (r, s') := ⟨_, _, rfl⟩

theorem witness_Suspension : ∃ s', run .nextOutput 1 (machine [3, 0]) = some (.awaitingInput, s') := ⟨_, rfl⟩

/-- An output, and a call that ends without one. -/
theorem witness_NextOutput :
    (∃ s', run .nextOutput 1 (machine [104, 7, 99]) = some (.output 7, s')) ∧
    ∃ s', run .nextOutput 1 (machine [99]) = some (.halted, s') ∧ ∀ v, RunReturn.halted ≠ .output v :=
  ⟨⟨_, rfl⟩, _, rfl, by intro v; simp⟩

theorem witness_NextOutputN :
    (∃ vs s', runNextOutputN 1 2 (machine [104, 7, 99]) = some (vs, .ended .halted, s')) ∧
    ∃ vs s', runNextOutputN 1 1 (machine [104, 7, 99]) = some (vs, .complete, s') := ⟨⟨_, _, rfl⟩, _, _, rfl⟩

/-- A call that does not need the input fed first, and one that ends for want of it, with its continuation. -/
theorem witness_InputSplit :
    (∃ s', run .toHalt 1 (machine [99]) = some (.halted, s') ∧ RunReturn.halted ≠ .awaitingInput) ∧
    ∃ s1 r s2, run .toHalt 1 (machine [3, 0, 99]) = some (.awaitingInput, s1) ∧
      run .toHalt 2 (setInput [7] s1) = some (r, s2) := ⟨⟨_, rfl, by decide⟩, _, _, _, rfl, rfl⟩

theorem witness_Clone : [machine [99], halted][1]? = some halted := rfl

theorem witness_SharesNothing :
    (∃ r g, fleetCall 1 (.on 0 .runToHalt) [machine [99], halted] = some (r, g)) ∧ (1 : Nat) ≠ 0 ∧
    ∃ r1 f1 r2 f2, fleetCall 1 (.on 1 (.setInput [4])) [machine [99], halted] = some (r1, f1) ∧
      fleetCall 1 (.on 0 .runToHalt) f1 = some (r2, f2) := ⟨⟨_, _, rfl⟩, by decide, _, _, _, _, rfl, rfl⟩

theorem witness_ProgramText : cellsOf [-9223372036854775808, 0] ≠ [] := by decide

/-- Tokens at both ends of the range, the second signed, blank and zero-filled. -/
theorem witness_ProgramTextTokens : TokenIs "9223372036854775807".toList (9223372036854775807 : Word).toInt ∧
    TokenIs " -009223372036854775808\n".toList (-9223372036854775808 : Word).toInt :=
  ⟨⟨[], "9223372036854775807".toList, [], by simp, by simp, by simp, by simp, .inl ⟨rfl, by decide⟩⟩,
    [' '], "009223372036854775808".toList, ['\n'], by simp [Blank], by simp [Blank], by simp, by simp,
    .inr (.inr ⟨rfl, by decide⟩)⟩

/-- Texts with a token that is no integer in range: an empty one in the middle, one that is a letter. -/
theorem witness_ProgramTextRefusals : (∀ t ∈ [['1'], [], ['2']], ',' ∉ t) ∧
    (∃ t ∈ [['1'], [], ['2']], ∀ x, InRange x → ¬TokenIs t x) ∧
    (∀ t ∈ [['x']], ',' ∉ t) ∧ (∃ t ∈ [['x']], ∀ x, InRange x → ¬TokenIs t x) ∧
    (∀ x ∈ [' ', '\t'], Blank x) ∧ (∀ x ∈ ['\r', '\n'], Blank x) ∧ 2 ^ 63 ≤ (9223372036854775808 : Nat) ∧
    2 ^ 63 < (9223372036854775809 : Nat) := by
  refine ⟨by simp, ⟨[], by simp, ?_⟩, by simp, ⟨['x'], by simp, ?_⟩, by simp [Blank], by simp [Blank], by norm_num,
    by norm_num⟩
  · rintro x - ⟨b, ds, c, -, -, h, -, h1 | h1 | h1⟩ <;> simp_all
  · rintro x - ⟨b, ds, c, -, -, h, hd, h1 | h1 | h1⟩
    · have hm : 'x' ∈ ds := by
        cases ds with
        | nil => exact absurd rfl h
        | cons d ds' =>
          cases b with
          | nil =>
            simp only [List.nil_append, List.cons_append, List.cons.injEq] at h1
            rw [← h1.1.1]
            exact List.mem_cons_self
          | cons => simp at h1
      exact absurd (hd 'x' hm) (by decide)
    · cases b <;> simp_all
    · cases b <;> simp_all

end Sys2Proof.Tests
end

/-!
PROOFS. What the state items keep over an instruction, a step and a host call (10_state.md): the frame of a completed
instruction, the inversion of a step, the relations every host call keeps, and the obligations of 10_state.md.
-/

namespace Sys2Proof.Machine

/-! ## What growth and an abort leave alone -/

section Grown
variable {s g : State} (h : Grown s g)
include h
theorem Grown.len_mono : s.mem.len ≤ g.mem.len := h.1
theorem Grown.len_bound : g.mem.len ≤ max s.mem.len s.cfg.memMax.val := h.2.1
theorem Grown.rb : g.rb = s.rb := by rw [h.2.2]
theorem Grown.halted : g.halted = s.halted := by rw [h.2.2]
theorem Grown.status : g.status = s.status := by rw [h.2.2]
theorem Grown.fault : g.fault = s.fault := by rw [h.2.2]
theorem Grown.inq : g.inq = s.inq := by rw [h.2.2]
theorem Grown.out : g.out = s.out := by rw [h.2.2]
end Grown

section Abandon
variable (s : State) (e : Abort)
@[simp] theorem abandon_cfg : (abandon s e).cfg = s.cfg := by cases e <;> rfl
@[simp] theorem abandon_mem : (abandon s e).mem = s.mem := by cases e <;> rfl
@[simp] theorem abandon_pc : (abandon s e).pc = s.pc := by cases e <;> rfl
@[simp] theorem abandon_rb : (abandon s e).rb = s.rb := by cases e <;> rfl
@[simp] theorem abandon_halted : (abandon s e).halted = s.halted := by cases e <;> rfl
@[simp] theorem abandon_inq : (abandon s e).inq = s.inq := by cases e <;> rfl
@[simp] theorem abandon_out : (abandon s e).out = s.out := by cases e <;> rfl

theorem abandon_status : (abandon s e).status = .faulted ∨ (abandon s e).status = .awaitingInput := by
  cases e
  · exact .inl rfl
  · exact .inr rfl
end Abandon

end Sys2Proof.Machine

namespace Sys2Proof.Proofs

open Sys2Proof.Machine Sys2Proof.Statements

/-! ## The values of operands -/

theorem namesCell_of_grown {s g : State} (h : Grown s g) {o : Operand} {n : Nat} (hn : NamesCell g o n) :
    NamesCell s o n := by
  unfold NamesCell at hn ⊢
  rwa [h.cfg, h.rb] at hn

/-- Growth changes no operand's value: what a later operand reads after the earlier ones grew memory is what it names
in the state the instruction found (R34). -/
theorem readsAs_of_grown {s g : State} (h : Grown s g) {o : Operand} {v : Word} (hv : ReadsAs g o v) :
    ReadsAs s o v := by
  obtain hi | ⟨n, hn, rfl⟩ := hv
  · exact .inl hi
  · exact .inr ⟨n, namesCell_of_grown h hn, h.read n⟩

/-- The cell an operand in mode 0 or 2 names is the one at its address (R56, R57). -/
theorem namesCell_operandAddress {s : State} {o : Operand} (hm : o.mode = .absolute ∨ o.mode = .relative)
    (h0 : 0 ≤ operandAddress o s.rb) (hlt : (operandAddress o s.rb).toNat < s.cfg.memMax.val) :
    NamesCell s o (operandAddress o s.rb).toNat := by
  refine ⟨hlt, ?_⟩
  rw [Int.toNat_of_nonneg h0]
  obtain hm | hm := hm
  · exact .inl ⟨hm, by simp [operandAddress, hm]⟩
  · exact .inr ⟨hm, by simp [operandAddress, hm]⟩

/-- A read operand resolves to the value R56 gives it. -/
theorem readsAs_of_readOperand {i : Nat} {o : Operand} {s t : State} {v : Word}
    (h : readOperand i o s = .ok (v, t)) : ReadsAs s o v := by
  obtain ⟨-, ⟨hm, hr⟩ | ⟨hm, hr⟩⟩ := readOperand_ok.mp h
  · exact .inl ⟨hm, congrArg Prod.fst hr⟩
  · obtain ⟨h0, hmem⟩ := readAddress_ok.mp hr
    obtain ⟨hlt, hv⟩ := memRead_ok.mp hmem
    exact .inr ⟨_, namesCell_operandAddress hm h0 hlt, congrArg Prod.fst hv⟩

theorem readsAs_of_resolveR {x : Nat} {a : Operand} {s t : State} {v : Word} (h : resolveR x a s = .ok (v, t)) :
    ReadsAs s a v := by
  obtain ⟨s0, h0, h1⟩ := resolveR_ok.mp h
  exact readsAs_of_grown (fetchWord_grown h0) (readsAs_of_readOperand h1)

theorem readsAs_of_resolveRR {x : Nat} {a b : Operand} {s t : State} {va vb : Word}
    (h : resolveRR x a b s = .ok (va, vb, t)) : ReadsAs s b vb := by
  obtain ⟨s1, h1, h2⟩ := resolveRR_ok.mp h
  exact readsAs_of_grown (resolveR_grown h1) (readsAs_of_readOperand h2)

/-- Resolving a write target never asks for input: it ends early only in a fault (R57, R138). -/
theorem resolveW_ne_awaitingInput (x : Nat) (o : Operand) (s : State) :
    resolveW x o s ≠ .error .awaitingInput := by
  simp [resolveW_error, fetchWord_error, writeOperand_error, targetAddress_error]

/-! ## The frame of an instruction -/

/-- An instruction's answer is the end of its pseudocode or the state its abort leaves (R7, R47). -/
theorem exec_next {i : Instr} {s t : State} :
    exec i s = .next t ↔ body i s = .ok t ∨ ∃ e, body i s = .error e ∧ t = abandon s e := by
  rw [exec_eq_commit, commit_next]

/-- What a completed instruction leaves alone, item by item: each item but memory and `pc` is as it was unless the
instruction is the one that writes it (R13 to R19), and memory keeps its cells, its form and its bound (R34, R36). -/
structure Completed (i : Instr) (s t : State) : Prop where
  cfg : t.cfg = s.cfg
  len_mono : s.mem.len ≤ t.mem.len
  len_bound : t.mem.len ≤ max s.mem.len s.cfg.memMax.val
  wf : s.mem.wf = true → t.mem.wf = true
  fault : t.fault = s.fault
  rb : t.rb = s.rb ∨ ∃ x a, i = .adjustRelativeBase x a
  inq : t.inq = s.inq ∨ ∃ x o, i = .input x o
  out : t.out = s.out ∨ ∃ x a, i = .output x a
  runState : (t.halted = s.halted ∧ t.status = s.status) ∨ ∃ x, i = .halt x

theorem completed_of_grown (i : Instr) {s g : State} (h : Grown s g) : Completed i s g where
  cfg := h.cfg
  len_mono := h.len_mono
  len_bound := h.len_bound
  wf := h.wf
  fault := h.fault
  rb := .inl h.rb
  inq := .inl h.inq
  out := .inl h.out
  runState := .inl ⟨h.halted, h.status⟩

/-- A write below MEM_MAX keeps the frame: memory stays canonical and within the bound (R33, R36). -/
theorem completed_write {i : Instr} {s g : State} (h : Completed i s g) {ad : Nat} (had : ad < s.cfg.memMax.val)
    (v : Word) : Completed i s { g with mem := g.mem.write ad v } :=
  { h with
    len_mono := le_max_of_le_left h.len_mono
    len_bound := max_le h.len_bound (le_max_of_le_right had)
    wf := fun w => write_wf (h.wf w) ad v }

/-- Every completed instruction has the frame: the growth its reads did has it, and each ending of `body_ok` writes
below MEM_MAX, or one of the items its disjunct names, and moves `pc`. -/
theorem completed_of_body {i : Instr} {s t : State} (h : body i s = .ok t) : Completed i s t := by
  obtain ⟨g, hg, -, h⟩ := body_ok h
  have grown := completed_of_grown i hg
  rcases h with ⟨ad, r, had, rfl⟩ | ⟨x, o, ad, v, rest, hi, -, had, rfl⟩ | ⟨x, a, v, hi, rfl⟩ | ⟨v, -, rfl⟩ | rfl |
    ⟨x, a, r, hi, rfl⟩ | ⟨x, hi, rfl⟩
  · exact { completed_write grown had r with }
  · exact { completed_write grown had v with inq := .inr ⟨x, o, hi⟩ }
  · exact { grown with out := .inr ⟨x, a, hi⟩ }
  · exact { grown with }
  · exact { grown with }
  · exact { grown with rb := .inr ⟨x, a, hi⟩ }
  · exact { grown with runState := .inr ⟨x, hi⟩ }

/-- The flag and the status of a completed instruction: only Halt sets them, and both (R15, R91). -/
theorem body_halted {i : Instr} {s t : State} (h : body i s = .ok t) :
    (t.halted = s.halted ∧ t.status = s.status) ∨ ((∃ x, i = .halt x) ∧ t.halted = true ∧ t.status = .halted) := by
  refine (completed_of_body h).runState.imp_right ?_
  rintro ⟨x, rfl⟩
  obtain ⟨s1, -, rfl⟩ := halt_body_ok.mp h
  exact ⟨⟨x, rfl⟩, rfl, rfl⟩

/-! ## The program counter -/

/-- An advance within MEM_MAX does not wrap (R13, D25). -/
theorem toNat_pc_advance {s : State} {n : Nat} (h : s.pc.toNat + n ≤ s.cfg.memMax.val) :
    (s.pc + BitVec.ofNat 64 n).toNat = s.pc.toNat + n := by
  have := s.cfg.memMax.isLt
  rw [BitVec.toNat_add, BitVec.toNat_ofNat]
  omega

/-- Where `pc` is when an instruction completes: past it, or at the target of a jump (R13, R82). -/
theorem body_pc {i : Instr} {s t : State} (h : body i s = .ok t) :
    t.pc = s.pc + BitVec.ofNat 64 i.length ∨
      ∃ x c g, (i = .jumpIfTrue x c g ∨ i = .jumpIfFalse x c g) ∧ ReadsAs s g t.pc ∧ 0 ≤ t.pc.toInt := by
  have jump : ∀ {p : Word → Bool} {x : Nat} {c g : Operand}, runJump p x c g s = .ok t →
      t.pc = s.pc + 3 ∨ (ReadsAs s g t.pc ∧ 0 ≤ t.pc.toInt) := by
    intro p x c g h
    obtain ⟨vc, vt, s1, hr, ⟨-, h0, rfl⟩ | ⟨-, rfl⟩⟩ := runJump_ok.mp h
    · exact .inr ⟨readsAs_of_resolveRR hr, h0⟩
    · exact .inl (congrArg (· + 3) (resolveRR_grown hr).pc)
  have rrw : ∀ {alu : Config → Word → Word → Except Abort Word} {x : Nat} {a b o : Operand},
      runRRW alu x a b o s = .ok t → t.pc = s.pc + 4 := by
    intro alu x a b o h
    obtain ⟨va, vb, ad, s1, r, hr, -, rfl⟩ := runRRW_ok.mp h
    exact congrArg (· + 4) (resolveRRW_grown hr).1.pc
  cases i with
  | add | multiply | lessThan | equals =>
    simp only [body] at h
    exact .inl (rrw h)
  | jumpIfTrue x c g => exact (jump (jumpIfTrue_body x c g s ▸ h)).imp_right fun hg => ⟨x, c, g, .inl rfl, hg⟩
  | jumpIfFalse x c g => exact (jump (jumpIfFalse_body x c g s ▸ h)).imp_right fun hg => ⟨x, c, g, .inr rfl, hg⟩
  | input x o =>
    obtain ⟨ad, s1, v, rest, hr, -, rfl⟩ := input_body_ok.mp h
    exact .inl (congrArg (· + 2) (resolveW_grown hr).1.pc)
  | output x a =>
    obtain ⟨v, s1, hr, rfl⟩ := output_body_ok.mp h
    exact .inl (congrArg (· + 2) (resolveR_grown hr).pc)
  | adjustRelativeBase x a =>
    obtain ⟨v, s1, r, hr, -, rfl⟩ := adjust_body_ok.mp h
    exact .inl (congrArg (· + 2) (resolveR_grown hr).pc)
  | halt x =>
    obtain ⟨s1, hr, rfl⟩ := halt_body_ok.mp h
    exact .inl (congrArg (· + 1) (fetchWord_grown hr).pc)

/-- The advance of a completed instruction as a number: it does not wrap (R13, D25). -/
theorem body_pc_toNat {i : Instr} {s t : State} (h : body i s = .ok t) :
    t.pc.toNat = s.pc.toNat + i.length ∨
      ∃ x c g, (i = .jumpIfTrue x c g ∨ i = .jumpIfFalse x c g) ∧ ReadsAs s g t.pc ∧ 0 ≤ t.pc.toInt := by
  obtain ⟨-, -, hfit, -⟩ := body_ok h
  refine (body_pc h).imp_left fun hpc => ?_
  rw [hpc, toNat_pc_advance hfit]

/-! ## The step -/

theorem enterRun_eq_none {s : State} : enterRun s = none ↔ s.Over := by
  unfold enterRun State.Over
  cases s.status <;> simp

theorem enterRun_eq_some {s r : State} : enterRun s = some r ↔ Live s ∧ r = { s with status := .running } := by
  unfold enterRun Live
  cases s.status <;> simp [eq_comm]

theorem decodeAt_of_fetch {s : State} {i : Instr} (h : fetch s = .ok i) : decodeAt s = .ok i := by
  unfold fetch raise at h
  unfold decodeAt
  split at h
  · split at h
    · rename_i hd
      rw [hd, Except.ok.inj h]
    · cases h
  · cases h

/-- Every step: a machine that is over stays; a live one is abandoned, or completes the instruction its cells at `pc`
decode to, from the state set Running (R101, R102, R110, R111). -/
theorem step_cases {s t : State} (h : step s = .next t) :
    (s.Over ∧ t = s) ∨
      Live s ∧ ((∃ e, t = abandon { s with status := .running } e) ∨
        ∃ i, decodeAt s = .ok i ∧ body i { s with status := .running } = .ok t) := by
  cases hr : enterRun s with
  | none =>
    rw [step_over hr] at h
    exact .inl ⟨enterRun_eq_none.mp hr, by simpa using h.symm⟩
  | some r =>
    obtain ⟨hl, rfl⟩ := enterRun_eq_some.mp hr
    refine .inr ⟨hl, ?_⟩
    obtain ⟨e, -, hs⟩ | ⟨i, hf, hs⟩ := step_running hr
    · rw [hs] at h
      exact .inl ⟨e, by simpa using h.symm⟩
    · obtain hb | ⟨e, -, rfl⟩ := commit_next.mp (hs ▸ h)
      · exact .inr ⟨i, decodeAt_of_fetch hf, hb⟩
      · exact .inl ⟨e, rfl⟩

/-! ## The invariant -/

theorem inv_enter {s : State} (h : s.Inv) (hl : Live s) : State.Inv { s with status := .running } := by
  obtain ⟨hwf, hlen, hpc, hhalt, hfault⟩ := h
  have hs : s.status ≠ .halted ∧ s.status ≠ .faulted := by rcases hl with h | h <;> simp [h]
  exact ⟨hwf, hlen, hpc, by simpa [hs.1] using hhalt, by simpa [hs.2] using hfault⟩

theorem inv_abandon {s : State} (h : s.Inv) (hs : s.status = .running) (e : Abort) : (abandon s e).Inv := by
  obtain ⟨hwf, hlen, hpc, hhalt, hfault⟩ := h
  rw [hs] at hhalt hfault
  cases e with
  | fault k v => exact ⟨hwf, hlen, hpc, by simpa [abandon] using hhalt, by simp [abandon]⟩
  | awaitingInput => exact ⟨hwf, hlen, hpc, by simpa [abandon] using hhalt, by simpa [abandon] using hfault⟩

/-- `pc` stays in range: the instruction lay below MEM_MAX, and a jump's target is a cell value (R13). -/
theorem body_pc_le {i : Instr} {s t : State} (h : body i s = .ok t) : t.pc.toNat ≤ 2 ^ 63 + 3 := by
  obtain ⟨-, -, hfit, -⟩ := body_ok h
  have hmax := s.cfg.memMax.isLt
  obtain hpc | ⟨x, c, g, -, -, h0⟩ := body_pc_toNat h
  · omega
  · have := BitVec.toInt_pos_iff.mp h0
    omega

theorem inv_body {i : Instr} {s t : State} (h : s.Inv) (hs : s.status = .running) (hb : body i s = .ok t) : t.Inv := by
  obtain ⟨hwf, hlen, -, hhalt, hfault⟩ := h
  have c := completed_of_body hb
  have hlen' : t.mem.len ≤ t.cfg.memMax.val := by
    rw [c.cfg]
    exact c.len_bound.trans (max_le hlen le_rfl)
  refine ⟨c.wf hwf, hlen', body_pc_le hb, ?_⟩
  rw [hs] at hhalt hfault
  rw [c.fault]
  obtain ⟨hh, hst⟩ | ⟨-, hh, hst⟩ := body_halted hb
  · rw [hh, hst, hs]
    exact ⟨hhalt, hfault⟩
  · rw [hh, hst]
    exact ⟨by simp, by simpa using hfault⟩

/-- Settles O36: entering a run call, abandoning and completing an instruction each keep the invariant. -/
theorem stepKeepsTheInvariant : Obligations.StepKeepsTheInvariant := by
  intro s t h hstep
  obtain ⟨-, rfl⟩ | ⟨hl, ⟨e, rfl⟩ | ⟨i, -, hb⟩⟩ := step_cases hstep
  · exact h
  · exact inv_abandon (inv_enter h hl) rfl e
  · exact inv_body (inv_enter h hl) rfl hb

/-- Settles O26: an abandoned instruction keeps `pc`, a completed one moves it as `body_pc_toNat` says. -/
theorem onlyJumpsRedirectThePc : Obligations.OnlyJumpsRedirectThePc := by
  intro i s t h
  obtain hb | ⟨e, -, rfl⟩ := exec_next.mp h
  · exact (body_pc_toNat hb).imp_right .inr
  · exact .inr (.inl ⟨abandon_pc s e, abandon_status s e⟩)

/-! ## The relative base -/

theorem newMachine_ok {cfg : Config} {program : List Word} {s : State} (h : newMachine cfg program = .ok s) :
    s = { State.reset with cfg := cfg, mem := Memory.place ⟨[], 0⟩ 0 program } := by
  unfold newMachine at h
  split_ifs at h
  exact (Except.ok.inj h).symm

/-- Settles O27: the frame of the completed instruction and of the abandoned one. -/
theorem onlyAdjustRelativeBaseWritesRb : Obligations.OnlyAdjustRelativeBaseWritesRb := by
  refine ⟨rfl, fun i s t h hi => ?_, setInput_rb, fun cfg program s h => ?_⟩
  · obtain hb | ⟨e, -, rfl⟩ := exec_next.mp h
    · exact (completed_of_body hb).rb.resolve_right fun ⟨x, a, ha⟩ => hi x a ha
    · exact abandon_rb s e
  · rw [newMachine_ok h]
    rfl

/-! ## The queues -/

theorem abandon_withQueues (q o : List Word) (s : State) (e : Abort) :
    abandon (withQueues q o s) e = withQueues q o (abandon s e) := by
  cases e <;> rfl

/-- With other queues, an Output appends the same value to the other output sequence (R19, R76). -/
theorem output_body_withQueues {x : Nat} {a : Operand} {s t : State} (q o : List Word)
    (h : body (.output x a) s = .ok t) :
    body (.output x a) (withQueues q o s) = .ok (withQueues q (o ++ t.out.drop s.out.length) t) := by
  obtain ⟨v, s1, hr, rfl⟩ := output_body_ok.mp h
  have hout : s1.out = s.out := (resolveR_grown hr).out
  refine output_body_ok.mpr ⟨v, withQueues q o s1, ?_, ?_⟩
  · rw [resolveR_withQueues, hr]
    rfl
  · simp [hout, withQueues, advance]

/-- With another tail of the queue, an Input takes the same front and leaves the other tail (R18, R75). -/
theorem input_body_withQueues {x : Nat} {op : Operand} {s t : State} {v : Word} {rest : List Word} (q o : List Word)
    (hq : s.inq = v :: rest) (h : body (.input x op) s = .ok t) :
    body (.input x op) (withQueues (v :: q) o s) = .ok (withQueues q o t) := by
  obtain ⟨ad, s1, v', rest', hr, hq', rfl⟩ := input_body_ok.mp h
  obtain ⟨rfl, rfl⟩ := List.cons.inj (hq.symm.trans hq')
  refine input_body_ok.mpr ⟨ad, withQueues (v :: q) o s1, v, q, ?_, rfl, rfl⟩
  rw [resolveW_withQueues, hr]
  rfl

/-- An Input that ends early does so whatever the outputs are. -/
theorem input_body_error_withQueues {x : Nat} {op : Operand} {s : State} {e : Abort} (o : List Word)
    (h : body (.input x op) s = .error e) : body (.input x op) (withQueues s.inq o s) = .error e := by
  refine input_body_error.mpr ?_
  rw [resolveW_withQueues]
  obtain hr | ⟨⟨ad, s1, hr⟩, hq, he⟩ := input_body_error.mp h
  · rw [hr]
    exact .inl rfl
  · rw [hr]
    exact .inr ⟨⟨ad, _, rfl⟩, hq, he⟩

/-- An instruction but Input, on a machine with other queues: the same end with the other queue kept and the same
values appended to the other outputs. -/
theorem body_withQueues_of_not_input {i : Instr} {s t : State} (q o : List Word) (hi : ∀ x op, i ≠ .input x op)
    (h : body i s = .ok t) :
    body i (withQueues q o s) = .ok (withQueues q (o ++ t.out.drop s.out.length) t) := by
  by_cases ho : ∃ x a, i = .output x a
  · obtain ⟨x, a, rfl⟩ := ho
    exact output_body_withQueues q o h
  · have hout : t.out = s.out := (completed_of_body h).out.resolve_right ho
    rw [body_withQueues q o hi (fun x a ha => ho ⟨x, a, ha⟩), h, hout, List.drop_length, List.append_nil]
    rfl

theorem body_error_withQueues_of_not_input {i : Instr} {s : State} {e : Abort} (q o : List Word)
    (hi : ∀ x op, i ≠ .input x op) (h : body i s = .error e) : body i (withQueues q o s) = .error e := by
  by_cases ho : ∃ x a, i = .output x a
  · obtain ⟨x, a, rfl⟩ := ho
    rw [output_body_error, resolveR_withQueues, output_body_error.mp h]
    rfl
  · rw [body_withQueues q o hi (fun x a ha => ho ⟨x, a, ha⟩), h]
    rfl

theorem exec_withQueues_of_not_input {i : Instr} {s t : State} (q o : List Word) (hi : ∀ x op, i ≠ .input x op)
    (h : exec i s = .next t) :
    exec i (withQueues q o s) = .next (withQueues q (o ++ t.out.drop s.out.length) t) := by
  rw [exec_next]
  obtain hb | ⟨e, hb, rfl⟩ := exec_next.mp h
  · exact .inl (body_withQueues_of_not_input q o hi hb)
  · refine .inr ⟨e, body_error_withQueues_of_not_input q o hi hb, ?_⟩
    rw [abandon_out, List.drop_length, List.append_nil, abandon_withQueues]

theorem exec_inq {i : Instr} {s t : State} (h : exec i s = .next t) :
    t.inq = s.inq ∨ ∃ x o v, i = .input x o ∧ s.inq = v :: t.inq := by
  obtain hb | ⟨e, -, rfl⟩ := exec_next.mp h
  · refine (completed_of_body hb).inq.imp_right ?_
    rintro ⟨x, o, rfl⟩
    obtain ⟨ad, s1, v, rest, -, hq, rfl⟩ := input_body_ok.mp hb
    exact ⟨x, o, v, rfl, hq⟩
  · exact .inl (abandon_inq s e)

theorem exec_out {i : Instr} {s t : State} (h : exec i s = .next t) :
    t.out = s.out ∨ ∃ x a v, i = .output x a ∧ ReadsAs s a v ∧ t.out = s.out ++ [v] := by
  obtain hb | ⟨e, -, rfl⟩ := exec_next.mp h
  · refine (completed_of_body hb).out.imp_right ?_
    rintro ⟨x, a, rfl⟩
    obtain ⟨v, s1, hr, rfl⟩ := output_body_ok.mp hb
    exact ⟨x, a, v, rfl, readsAs_of_resolveR hr, congrArg (· ++ [v]) (resolveR_grown hr).out⟩
  · exact .inl (abandon_out s e)

/-- An instruction keeps the old outputs at the front. -/
theorem exec_out_append_drop {i : Instr} {s t : State} (h : exec i s = .next t) :
    s.out ++ t.out.drop s.out.length = t.out := by
  obtain ho | ⟨x, a, v, -, -, ho⟩ := exec_out h <;> simp [ho]

/-- An Input that finds a value and does not fault completes: only an empty queue suspends it (R75, R108). -/
theorem input_body_ok_of_exec {x : Nat} {o : Operand} {s t : State} (hq : s.inq ≠ [])
    (h : exec (.input x o) s = .next t) (ht : t.status ≠ .faulted) : body (.input x o) s = .ok t := by
  obtain hb | ⟨e, hb, rfl⟩ := exec_next.mp h
  · exact hb
  · cases e with
    | fault k v => exact absurd rfl ht
    | awaitingInput =>
      obtain hr | ⟨-, he, -⟩ := input_body_error.mp hb
      · exact absurd hr (resolveW_ne_awaitingInput x o s)
      · exact absurd he hq

theorem input_exec_withQueues {x : Nat} {op : Operand} {s t : State} {v : Word} {rest : List Word} (q o : List Word)
    (hq : s.inq = v :: rest) (h : exec (.input x op) s = .next t) (ht : t.status ≠ .faulted) :
    exec (.input x op) (withQueues (v :: q) o s) = .next (withQueues q o t) :=
  exec_next.mpr (.inl (input_body_withQueues q o hq (input_body_ok_of_exec (by simp [hq]) h ht)))

theorem input_exec_out {x : Nat} {op : Operand} {s t : State} (h : exec (.input x op) s = .next t) :
    t.out = s.out := by
  obtain ho | ⟨x', a, v, hi, -⟩ := exec_out h
  · exact ho
  · cases hi

/-- Settles O28: no instruction but Input depends on the queue, and Input depends on its front alone. -/
theorem inputQueueIsFirstInFirstOut : Obligations.InputQueueIsFirstInFirstOut := by
  refine ⟨rfl, setInput_inq, fun i s t h => exec_inq h, fun i s t q h hi => ?_,
    fun x o s t v rest q hq h ht => ?_⟩
  · have := exec_withQueues_of_not_input q s.out hi h
    rwa [exec_out_append_drop h] at this
  · have hout : withQueues q s.out t = { t with inq := q } := by rw [← input_exec_out h, withQueues]
    exact hout ▸ input_exec_withQueues q s.out hq h ht

/-- Whatever the outputs are, an instruction does the same and appends the same (R19). -/
theorem exec_withOutputs {i : Instr} {s t : State} (o : List Word) (h : exec i s = .next t) :
    exec i (withQueues s.inq o s) = .next (withQueues t.inq (o ++ t.out.drop s.out.length) t) := by
  by_cases hi : ∃ x op, i = .input x op
  · obtain ⟨x, op, rfl⟩ := hi
    rw [input_exec_out h, List.drop_length, List.append_nil, exec_next]
    obtain hb | ⟨e, hb, rfl⟩ := exec_next.mp h
    · obtain ⟨ad, s1, v, rest, -, hq, ht⟩ := input_body_ok.mp hb
      have hrest : t.inq = rest := by rw [ht]; rfl
      have := input_body_withQueues t.inq o hq hb
      rw [hrest, ← hq] at this
      exact .inl (hrest ▸ this)
    · exact .inr ⟨e, input_body_error_withQueues o hb, by rw [abandon_inq, abandon_withQueues]⟩
  · have hinq : t.inq = s.inq := by
      obtain hq | ⟨x, op, v, he, -⟩ := exec_inq h
      · exact hq
      · exact absurd ⟨x, op, he⟩ hi
    rw [hinq]
    exact exec_withQueues_of_not_input s.inq o (fun x op he => hi ⟨x, op, he⟩) h

/-! ## What every host call keeps -/

/-- A relation between a machine and what it becomes that holds over entering a run call, over a step and over feeding
input. Every transaction of the host keeps it (R118, R121). -/
structure KeptByHost (R : State → State → Prop) : Prop where
  refl : ∀ s, R s s
  trans : ∀ {s t u}, R s t → R t u → R s u
  enter : ∀ {s}, Live s → R s { s with status := .running }
  step : ∀ {s t}, step s = .next t → R s t
  feed : ∀ vs s, R s (setInput vs s)

/-- One turn of the loop, by the step's outcome: it ends with the state after the step, or goes on from it (R102). -/
theorem runLoop_succ {mode : RunMode} {fuel : Nat} {s s' : State} {r : RunReturn}
    (h : runLoop mode (fuel + 1) s = some (r, s')) :
    ∃ t, step s = .next t ∧ (s' = t ∨ runLoop mode fuel t = some (r, s')) := by
  simp only [runLoop] at h
  cases hs : step s with
  | fault f => cases f
  | refused f => simp [hs] at h
  | next t =>
    refine ⟨t, rfl, ?_⟩
    simp only [hs] at h
    cases ho : stepOutcome s t with
    | fault | suspend | halted =>
      simp only [ho, Option.some.injEq, Prod.mk.injEq] at h
      exact .inl h.2.symm
    | produced v =>
      simp only [ho] at h
      split_ifs at h
      · exact .inl (Prod.mk.inj (Option.some.inj h)).2.symm
      · exact .inr h
    | continued =>
      simp only [ho] at h
      exact .inr h

theorem run_of_over {mode : RunMode} {fuel : Nat} {s s' : State} {r : RunReturn} (ho : s.Over)
    (h : run mode fuel s = some (r, s')) : s' = s := by
  unfold run at h
  rcases ho with hs | hs <;> simp_all

theorem run_of_live {s : State} (hl : Live s) (mode : RunMode) (fuel : Nat) :
    run mode fuel s = runLoop mode fuel { s with status := .running } := by
  unfold run
  rcases hl with hs | hs <;> rw [hs]

theorem over_or_live (s : State) : s.Over ∨ Live s := by
  unfold State.Over Live
  cases s.status <;> simp

/-- Every host call leaves the machines as they are, adds one that `new` made or that equals one of them, or replaces
one by what a transaction on it gives (R115, R116, R121). -/
theorem fleetCall_cases {fuel : Nat} {c : FleetCall} {f g : List State} {r : FleetResponse}
    (h : fleetCall fuel c f = some (r, g)) :
    g = f ∨ (∃ u, ((∃ cfg program, newMachine cfg program = .ok u) ∨ u ∈ f) ∧ g = f ++ [u]) ∨
      ∃ j tr u q v, f[j]? = some u ∧ transact fuel tr u = some (q, v) ∧ g = f.set j v := by
  cases c with
  | new cfg program =>
    simp only [fleetCall] at h
    split at h
    · rename_i u hu
      exact .inr (.inl ⟨u, .inl ⟨cfg, program, hu⟩, (Prod.mk.inj (Option.some.inj h)).2.symm⟩)
    · exact .inl (Prod.mk.inj (Option.some.inj h)).2.symm
  | clone k =>
    simp only [fleetCall] at h
    split at h
    · rename_i u hu
      exact .inr (.inl ⟨u, .inr (List.mem_of_getElem? hu), (Prod.mk.inj (Option.some.inj h)).2.symm⟩)
    · exact .inl (Prod.mk.inj (Option.some.inj h)).2.symm
  | on k tr =>
    simp only [fleetCall] at h
    split at h
    · rename_i u hu
      obtain ⟨⟨q, v⟩, hv, he⟩ := Option.map_eq_some_iff.mp h
      exact .inr (.inr ⟨k, tr, u, q, v, hu, hv, (Prod.mk.inj he).2.symm⟩)
    · exact .inl (Prod.mk.inj (Option.some.inj h)).2.symm

section
variable {R : State → State → Prop} (hR : KeptByHost R)
include hR

theorem runLoop_kept {mode : RunMode} {fuel : Nat} {s s' : State} {r : RunReturn}
    (h : runLoop mode fuel s = some (r, s')) : R s s' := by
  induction fuel generalizing s with
  | zero => cases h
  | succ fuel ih =>
    obtain ⟨t, hs, rfl | h⟩ := runLoop_succ h
    · exact hR.step hs
    · exact hR.trans (hR.step hs) (ih h)

theorem run_kept {mode : RunMode} {fuel : Nat} {s s' : State} {r : RunReturn}
    (h : run mode fuel s = some (r, s')) : R s s' := by
  obtain ho | hl := over_or_live s
  · exact run_of_over ho h ▸ hR.refl s
  · exact hR.trans (hR.enter hl) (runLoop_kept hR (run_of_live hl mode fuel ▸ h))

theorem runNextOutputN_kept {fuel n : Nat} {s s' : State} {vs : List Word} {why : EndReason}
    (h : runNextOutputN fuel n s = some (vs, why, s')) : R s s' := by
  induction n generalizing s vs with
  | zero =>
    simp only [runNextOutputN, Option.some.injEq, Prod.mk.injEq] at h
    exact h.2.2 ▸ hR.refl s
  | succ n ih =>
    simp only [runNextOutputN] at h
    cases hr : run .nextOutput fuel s with
    | none => simp [hr] at h
    | some q =>
      obtain ⟨r, t⟩ := q
      have ht : R s t := run_kept hR hr
      cases r with
      | output v =>
        simp only [hr, Option.map_eq_some_iff] at h
        obtain ⟨⟨ws, why', u⟩, hu, he⟩ := h
        simp only [Prod.mk.injEq] at he
        obtain ⟨-, rfl, rfl⟩ := he
        exact hR.trans ht (ih hu)
      | alreadyHalted | halted | awaitingInput | fault record =>
        simp only [hr, Option.some.injEq, Prod.mk.injEq] at h
        exact h.2.2 ▸ ht

theorem transact_kept {fuel : Nat} {tr : Transaction} {s s' : State} {r : Response}
    (h : transact fuel tr s = some (r, s')) : R s s' := by
  have mapped : ∀ {mode : RunMode}, (run mode fuel s).map (fun q => (Response.returned q.1, q.2)) = some (r, s') →
      R s s' := by
    intro mode h
    obtain ⟨⟨q, t⟩, hq, he⟩ := Option.map_eq_some_iff.mp h
    obtain ⟨-, rfl⟩ := Prod.mk.inj he
    exact run_kept hR hq
  cases tr with
  | setInput vs => exact (Prod.mk.inj (Option.some.inj h)).2 ▸ hR.feed vs s
  | inspectOutput | dumpMemory => exact (Prod.mk.inj (Option.some.inj h)).2 ▸ hR.refl s
  | runToHalt | runToNextInputNeeded | runToNextOutput => exact mapped h
  | runToNextOutputN n =>
    obtain ⟨⟨vs, why, t⟩, hq, he⟩ := Option.map_eq_some_iff.mp h
    obtain ⟨-, rfl⟩ := Prod.mk.inj he
    exact runNextOutputN_kept hR hq

/-- Over any host call, the machine with a given number becomes one related to it (R116, R121). -/
theorem fleetCall_kept {fuel : Nat} {c : FleetCall} {f g : List State} {r : FleetResponse}
    (h : fleetCall fuel c f = some (r, g)) {k : Nat} {s : State} (hk : f[k]? = some s) :
    ∃ t, g[k]? = some t ∧ R s t := by
  have hlt : k < f.length := (List.getElem?_eq_some_iff.mp hk).1
  obtain rfl | ⟨u, -, rfl⟩ | ⟨j, tr, u, q, v, hj, hv, rfl⟩ := fleetCall_cases h
  · exact ⟨s, hk, hR.refl s⟩
  · exact ⟨s, by rw [List.getElem?_append_left hlt, hk], hR.refl s⟩
  · by_cases hjk : j = k
    · subst hjk
      obtain rfl : u = s := Option.some.inj (hj.symm.trans hk)
      exact ⟨v, List.getElem?_set_self hlt, transact_kept hR hv⟩
    · exact ⟨s, (List.getElem?_set_ne hjk).trans hk, hR.refl s⟩

end

/-! ## History -/

/-- `t` is a later state of the machine in `s`: nothing of its history is undone, and a machine that is over changes
in its input queue only (R11, R19, R107, R110, R111). -/
structure History (s t : State) : Prop where
  cfg : t.cfg = s.cfg
  len : s.mem.len ≤ t.mem.len
  out : ∃ o, t.out = s.out ++ o
  halted : s.halted = true → t.halted = true
  ended : s.Over → t = { s with inq := t.inq }

theorem History.refl (s : State) : History s s := ⟨rfl, le_rfl, ⟨[], by simp⟩, id, fun _ => rfl⟩

theorem History.trans {s t u : State} (h : History s t) (k : History t u) : History s u where
  cfg := k.cfg.trans h.cfg
  len := h.len.trans k.len
  out := by
    obtain ⟨o, ho⟩ := h.out
    obtain ⟨p, hp⟩ := k.out
    exact ⟨o ++ p, by rw [hp, ho, List.append_assoc]⟩
  halted := k.halted ∘ h.halted
  ended hs := by
    have ht := h.ended hs
    have hto : t.Over := by rw [ht]; exact hs
    rw [k.ended hto, ht]

/-- A machine that can take a step is not over (R119). -/
theorem not_over_of_live {s : State} (hl : Live s) : ¬s.Over := by
  unfold State.Over
  rcases hl with h | h <;> simp [h]

theorem history_enter {s : State} (hl : Live s) : History s { s with status := .running } :=
  ⟨rfl, le_rfl, ⟨[], by simp⟩, id, fun ho => absurd ho (not_over_of_live hl)⟩

theorem history_abandon {s : State} (hl : Live s) (e : Abort) : History s (abandon s e) where
  cfg := abandon_cfg s e
  len := by rw [abandon_mem]
  out := ⟨[], by rw [abandon_out, List.append_nil]⟩
  halted := by rw [abandon_halted]; exact id
  ended ho := absurd ho (not_over_of_live hl)

theorem history_body {i : Instr} {s t : State} (hl : Live s) (h : body i s = .ok t) : History s t where
  cfg := (completed_of_body h).cfg
  len := (completed_of_body h).len_mono
  out := ⟨_, (exec_out_append_drop (exec_next.mpr (.inl h))).symm⟩
  halted hs := by
    obtain ⟨hh, -⟩ | ⟨-, hh, -⟩ := body_halted h
    · rw [hh, hs]
    · exact hh
  ended ho := absurd ho (not_over_of_live hl)

theorem history_step {s t : State} (h : step s = .next t) : History s t := by
  obtain ⟨-, rfl⟩ | ⟨hl, ⟨e, rfl⟩ | ⟨i, -, hb⟩⟩ := step_cases h
  · exact .refl t
  · exact (history_enter hl).trans (history_abandon (.inl rfl) e)
  · exact (history_enter hl).trans (history_body (.inl rfl) hb)

theorem history_keptByHost : KeptByHost History where
  refl := .refl
  trans := .trans
  enter := history_enter
  step := history_step
  feed vs s := ⟨rfl, le_rfl, ⟨[], by simp⟩, id, fun _ => rfl⟩

/-- Settles O29: the outputs over one instruction, and over a transaction by the history every host call keeps. -/
theorem outputSequenceOnlyGrows : Obligations.OutputSequenceOnlyGrows :=
  ⟨rfl, fun _ _ _ h => exec_out h, fun _ _ _ o h => exec_withOutputs o h,
    fun _ _ _ _ _ h => (transact_kept history_keptByHost h).out, fun _ _ => rfl⟩

/-- Settles O30: the flag is part of the history a step keeps, and a step that sets it completed a Halt. -/
theorem haltedFlagIsSetOnceByHalt : Obligations.HaltedFlagIsSetOnceByHalt := by
  refine ⟨rfl, fun s t h => (history_step h).halted, fun s t h hs ht => ?_, fun s h hs => ?_⟩
  · obtain ⟨-, rfl⟩ | ⟨-, ⟨e, rfl⟩ | ⟨i, hd, hb⟩⟩ := step_cases h
    · simp [hs] at ht
    · simp [hs] at ht
    · obtain ⟨hh, -⟩ | ⟨⟨x, rfl⟩, -, hst⟩ := body_halted hb
      · simp [hh, hs] at ht
      · exact ⟨hst, x, hd⟩
  · obtain ⟨-, -, -, hhalt, -⟩ := h
    exact step_over (enterRun_eq_none.mpr (.inl (hhalt.mp hs)))

/-- Settles O38: history is kept by entering a run call, by a step and by feeding input, so by every host call. -/
theorem historyIsNeverUndone : Obligations.HistoryIsNeverUndone := by
  intro fuel c f g r h k s hk
  obtain ⟨t, ht, hist⟩ := fleetCall_kept history_keptByHost h hk
  exact ⟨t, ht, hist.cfg, hist.len, hist.out, hist.halted, hist.ended⟩

/-! ## Reset -/

/-- Settles O33: the reset state's items, and `new` of the empty program. -/
theorem resetValues : Obligations.ResetValues :=
  ⟨rfl, fun _ => rfl, rfl, rfl, rfl, rfl, rfl, rfl, rfl, rfl⟩

/-- Settles O35: no cell exists at reset, `pc` is 0, and neither the flag nor a record is set. -/
theorem resetMeetsTheInvariant : Obligations.ResetMeetsTheInvariant :=
  ⟨reset_wf, Nat.zero_le _, Nat.zero_le _, by simp [State.reset], by simp [State.reset]⟩

end Sys2Proof.Proofs

/-!
PROOFS. Memory (20_memory.md): the access primitives, a fetch beyond MEM_MAX, what an abandoned instruction and a
completed one leave alone, and the instruction that a store at `pc` makes the next step run.
-/

namespace Sys2Proof.Machine

/-! ## The access primitives -/

/-- What `MemRead` answers: a cell that does not exist reads 0 (R32). -/
theorem read_eq_ite_lt_len {m : Memory} (h : m.wf = true) (a : Nat) :
    m.read a = if a < m.len then m.read a else 0 := by
  split_ifs with ha
  · rfl
  · exact read_of_len_le h (not_lt.mp ha)

/-- The length after an access at `a`, as R32 and R33 write it. -/
theorem max_len_eq_ite (len a : Nat) : max len (a + 1) = if len ≤ a then a + 1 else len := by
  split_ifs with h
  · exact max_eq_right (by omega)
  · exact max_eq_left (by omega)

/-- An access to a cell that exists grows nothing (R32). -/
theorem grow_of_lt_len {m : Memory} {a : Nat} (h : a < m.len) : m.grow a = m := by
  unfold Memory.grow
  rw [max_eq_left h]

/-- After a write the growth of the reads before it shows in no other cell (R33, R34). -/
theorem Grown.write_read_of_ne {s g : State} (hg : Grown s g) (hwf : s.mem.wf = true) {ad a : Nat} (hne : a ≠ ad)
    (v : Word) : (g.mem.write ad v).read a = s.mem.read a := by
  rw [write_read (hg.wf hwf), if_neg hne, hg.read]

end Sys2Proof.Machine

namespace Sys2Proof.Proofs

open Sys2Proof.Machine Sys2Proof.Statements

/-- Settles O31: each primitive's one answer, on either side of MEM_MAX. -/
theorem readsGrowAndWritesStore : Obligations.ReadsGrowAndWritesStore := by
  intro a v s hwf
  refine ⟨fun ha => ⟨?_, ?_⟩, fun ha => ?_, fun fuel d t h => ?_⟩
  · refine ⟨{ s with mem := s.mem.grow a }, ?_, rfl, max_len_eq_ite _ _, fun b => rfl⟩
    rw [← read_eq_ite_lt_len hwf a]
    exact memRead_ok.mpr ⟨ha, rfl⟩
  · exact ⟨{ s with mem := s.mem.write a v }, memWrite_ok.mpr ⟨ha, rfl⟩, rfl, max_len_eq_ite _ _,
      fun b => write_read hwf a b v⟩
  · exact ⟨memRead_error.mpr ⟨ha, rfl⟩, memWrite_error.mpr ⟨ha, rfl⟩⟩
  · exact (Prod.mk.inj (Option.some.inj h)).2.symm

theorem exec_len_mono {i : Instr} {s t : State} (h : exec i s = .next t) : s.mem.len ≤ t.mem.len := by
  obtain hb | ⟨e, -, rfl⟩ := exec_next.mp h
  · exact (completed_of_body hb).len_mono
  · rw [abandon_mem]

/-- Settles O32: instructions never shrink memory; the cell written exists after the later read's growth, so that
reading it again grows nothing and gives what was written. -/
theorem growthPreservesData : Obligations.GrowthPreservesData := by
  refine ⟨fun i s t h => exec_len_mono h, fun a a2 v u s s1 s2 hwf hw hr hlt => ?_⟩
  obtain ⟨ha, rfl⟩ := memWrite_ok.mp hw
  obtain ⟨ha2, he⟩ := memRead_ok.mp hr
  obtain ⟨-, rfl⟩ := Prod.mk.inj he
  have h1 : a + 1 ≤ (s.mem.write a v).len := le_max_right _ _
  have h2 : a2 + 1 ≤ ((s.mem.write a v).grow a2).len := le_max_right _ _
  refine ⟨h1, h2, memRead_ok.mpr ⟨ha, ?_⟩⟩
  rw [grow_read, write_read hwf, if_pos rfl, grow_of_lt_len (show a < ((s.mem.write a v).grow a2).len by omega)]

/-! ## Faults and suspension -/

/-- The fault entry of the model is the one of R137. -/
theorem takeFault_eq_faultState (k : FaultKind) (v : Int) (s : State) : takeFault k v s = faultState s k v := rfl

/-- Entering a run call leaves no trace in a fault entry: the status is overwritten (R109, R137). -/
theorem takeFault_entered (k : FaultKind) (v : Int) (s : State) :
    takeFault k v { s with status := .running } = faultState s k v := rfl

theorem enterRun_of_live {s : State} (hl : Live s) : enterRun s = some { s with status := .running } :=
  enterRun_eq_some.mpr ⟨hl, rfl⟩

/-- A live machine whose fetch fails is abandoned before any instruction runs (R61, R102). -/
theorem step_of_fetch_error {s : State} {e : Abort} (hl : Live s)
    (h : fetch { s with status := .running } = .error e) :
    step s = .next (abandon { s with status := .running } e) := by
  simp only [step, enterRun_of_live hl, h]

theorem fetch_of_memMax_le {s : State} (h : s.cfg.memMax.val ≤ s.pc.toNat) :
    fetch s = .error (.fault .memoryExhausted s.pc.toNat) :=
  if_neg (not_lt.mpr h)

/-- Settles O8: the fetch fails at its bound, before any cell is looked at. -/
theorem fetchBeyondMemoryFaults : Obligations.FetchBeyondMemoryFaults := by
  intro s hl hpc
  have hf : fetch { s with status := .running } = .error (.fault .memoryExhausted s.pc.toNat) := fetch_of_memMax_le hpc
  rw [step_of_fetch_error hl hf, abandon, takeFault_entered]

/-- A completed instruction does not fault or suspend the machine: it keeps the status or sets Halted (R47, R91). -/
theorem body_status {i : Instr} {s t : State} (h : body i s = .ok t) : t.status = s.status ∨ t.status = .halted :=
  (body_halted h).imp And.right fun hhalt => hhalt.2.2

/-- Settles O13: a completed instruction enters neither status, and an abort enters the one it names. -/
theorem abandonedInstructionChangesNothing : Obligations.AbandonedInstructionChangesNothing := by
  intro i s t h hne
  obtain hb | ⟨e, -, rfl⟩ := exec_next.mp h
  · have hst := (body_status hb).resolve_left hne
    simp [hst]
  · cases e with
    | fault k v => exact ⟨fun _ => ⟨k, v, takeFault_eq_faultState k v s⟩, fun ht => absurd ht (by simp [abandon])⟩
    | awaitingInput => exact ⟨fun ht => absurd ht (by simp [abandon]), fun _ => rfl⟩

/-! ## The cell an instruction writes -/

/-- A write target resolves to the cell R57 says it names. -/
theorem namesCell_of_writeOperand {i : Nat} {o : Operand} {s t : State} {n : Nat}
    (h : writeOperand i o s = .ok (n, t)) : NamesCell s o n := by
  obtain ⟨-, hm, ht⟩ := writeOperand_ok.mp h
  obtain ⟨h0, hlt, he⟩ := targetAddress_ok.mp ht
  obtain ⟨rfl, -⟩ := Prod.mk.inj he
  exact namesCell_operandAddress hm h0 hlt

theorem namesCell_of_resolveW {x : Nat} {o : Operand} {s t : State} {n : Nat} (h : resolveW x o s = .ok (n, t)) :
    NamesCell s o n := by
  obtain ⟨s0, h0, h1⟩ := resolveW_ok.mp h
  exact namesCell_of_grown (fetchWord_grown h0) (namesCell_of_writeOperand h1)

theorem namesCell_of_resolveRRW {x : Nat} {a b o : Operand} {s t : State} {va vb : Word} {n : Nat}
    (h : resolveRRW x a b o s = .ok (va, vb, n, t)) : NamesCell s o n := by
  obtain ⟨s2, h2, h3⟩ := resolveRRW_ok.mp h
  exact namesCell_of_grown (resolveRR_grown h2) (namesCell_of_writeOperand h3)

theorem runRRW_read {alu : Config → Word → Word → Except Abort Word} {x n : Nat} {a b o : Operand} {s t : State}
    (hwf : s.mem.wf = true) (h : runRRW alu x a b o s = .ok t) (hn : ¬NamesCell s o n) :
    t.mem.read n = s.mem.read n := by
  obtain ⟨va, vb, ad, g, r, hr, -, rfl⟩ := runRRW_ok.mp h
  have hne : n ≠ ad := fun he => hn (he ▸ namesCell_of_resolveRRW hr)
  exact (resolveRRW_grown hr).1.write_read_of_ne hwf hne r

theorem runJump_read {p : Word → Bool} {x : Nat} {c o : Operand} {s t : State} (h : runJump p x c o s = .ok t)
    (n : Nat) : t.mem.read n = s.mem.read n := by
  obtain ⟨vc, vt, g, hr, ⟨-, -, rfl⟩ | ⟨-, rfl⟩⟩ := runJump_ok.mp h
  · exact (resolveRR_grown hr).read n
  · exact (resolveRR_grown hr).read n

theorem body_read {i : Instr} {s t : State} {n : Nat} (hwf : s.mem.wf = true) (h : body i s = .ok t)
    (hn : ∀ o ∈ i.operands, o.1 = .write → ¬NamesCell s o.2 n) : t.mem.read n = s.mem.read n := by
  cases i with
  | add x a b o | multiply x a b o | lessThan x a b o | equals x a b o =>
    simp only [body] at h
    exact runRRW_read hwf h (hn (.write, o) (by simp [Instr.operands]) rfl)
  | jumpIfTrue x c o | jumpIfFalse x c o =>
    simp only [body] at h
    exact runJump_read h n
  | input x o =>
    obtain ⟨ad, g, v, rest, hr, -, rfl⟩ := input_body_ok.mp h
    have hno : ¬NamesCell s o n := hn (.write, o) (by simp [Instr.operands]) rfl
    have hne : n ≠ ad := fun he => hno (he ▸ namesCell_of_resolveW hr)
    exact (resolveW_grown hr).1.write_read_of_ne hwf hne v
  | output x a =>
    obtain ⟨v, g, hr, rfl⟩ := output_body_ok.mp h
    exact (resolveR_grown hr).read n
  | adjustRelativeBase x a =>
    obtain ⟨v, g, r, hr, -, rfl⟩ := adjust_body_ok.mp h
    exact (resolveR_grown hr).read n
  | halt x =>
    obtain ⟨g, hr, rfl⟩ := halt_body_ok.mp h
    exact (fetchWord_grown hr).read n

/-- Settles O25: a completed instruction writes the cell its target names or none, an abandoned one keeps memory. -/
theorem onlyTheNamedTargetCellChanges : Obligations.OnlyTheNamedTargetCellChanges := by
  intro i s t hwf h n hn
  obtain hb | ⟨e, -, rfl⟩ := exec_next.mp h
  · exact body_read hwf hb hn
  · rw [abandon_mem]

/-! ## The cells of an instruction, read back -/

theorem digit_lt (m : Mode) : m.digit < 10 := by
  cases m with
  | reserved k => simp only [Mode.digit]; omega
  | absolute | immediate | relative => decide

/-- Only the units digit selects the mode, and it is the mode's own (R51, R56, R58). -/
theorem ofDigit_digit_add (m : Mode) (k : Nat) : Mode.ofDigit (m.digit + 10 * k) = m := by
  have hmod : (m.digit + 10 * k) % 10 = m.digit := by have := digit_lt m; omega
  unfold Mode.ofDigit
  rw [hmod]
  cases m with
  | reserved j => fin_cases j <;> rfl
  | absolute | immediate | relative => rfl

section ModeDigits
variable (o : Role × Operand) (os : List (Role × Operand)) (x : Nat)

@[simp] theorem modeDigits_nil : modeDigits [] x = x := rfl

@[simp] theorem ofDigit_modeDigits_cons : Mode.ofDigit (modeDigits (o :: os) x) = o.2.mode :=
  ofDigit_digit_add _ _

@[simp] theorem modeDigits_cons_div : modeDigits (o :: os) x / 10 = modeDigits os x := by
  have := digit_lt o.2.mode
  simp only [modeDigits]
  omega

end ModeDigits

/-- The shape of the encoding is the same for all ten instructions (R50, R51, R54). -/
theorem encoding_statement (i : Instr) : Laws.Encoding.Statement i :=
  Laws.Encoding.of_count (by cases i <;> simp [Instr.operands]) (by cases i <;> simp [Instr.opcode])

/-- Cells that begin with an instruction's encoding decode to it, whatever follows (R50, R51, R54, R64). -/
theorem decode_of_encode_cells {i : Instr} (h : i.encodable = true) {cell : Nat → Word}
    (hc : ∀ k < i.length, cell k = (encode i).getD k 0) : decode (cell 0) (cell 1) (cell 2) (cell 3) = .ok i := by
  have hlt : i.wordValue < 2 ^ 63 := of_decide_eq_true h
  obtain ⟨-, hpos, -, -, hop, hd, -⟩ := encoding_statement i
  have hword : cell 0 = BitVec.ofNat 64 i.wordValue := hc 0 hpos
  have hneg : ¬(BitVec.ofNat 64 i.wordValue).toInt < 0 := by
    rw [Laws.Encoding.ofNat_toInt hlt]
    omega
  have hnat : (BitVec.ofNat 64 i.wordValue).toNat = i.wordValue := by
    rw [BitVec.toNat_ofNat]
    omega
  have hd2 : i.wordValue / 1000 = i.wordValue / 100 / 10 := by omega
  have hd3 : i.wordValue / 10000 = i.wordValue / 100 / 10 / 10 := by omega
  have hd4 : i.wordValue / 100000 = i.wordValue / 100 / 10 / 10 / 10 := by omega
  unfold decode
  simp only [hword, hneg, if_false, hnat, hop, hd2, hd3, hd4, hd]
  cases i <;>
    simp [Instr.opcode, Instr.operands, Instr.excess, Instr.length, encode, hc 1, hc 2, hc 3]

/-- The cells of an instruction, placed at `pc`, decode to it (R45). -/
theorem decodeAt_place {s : State} {i : Instr} (hwf : s.mem.wf = true) (hi : i.encodable = true) :
    decodeAt { s with mem := s.mem.place s.pc.toNat (encode i) } = .ok i := by
  refine decode_of_encode_cells hi (cell := fun k => (s.mem.place s.pc.toNat (encode i)).read (s.pc.toNat + k))
    fun k hk => ?_
  have hlen : (encode i).length = i.length := (encoding_statement i).1
  rw [place_read hwf, if_pos (by omega), Nat.add_sub_cancel_left]

theorem fetch_of_decodeAt {s : State} {i : Instr} (hpc : s.pc.toNat < s.cfg.memMax.val) (h : decodeAt s = .ok i) :
    fetch s = .ok i := by
  unfold decodeAt at h
  rw [fetch, if_pos hpc, h]

/-- A live machine runs the instruction its cells at `pc` decode to, and nothing else (R61, R102, R109). -/
theorem step_of_decodeAt {s : State} {i : Instr} (hl : Live s) (hpc : s.pc.toNat < s.cfg.memMax.val)
    (h : decodeAt s = .ok i) : step s = exec i { s with status := .running } := by
  have hf : fetch { s with status := .running } = .ok i := fetch_of_decodeAt hpc h
  simp only [step, enterRun_of_live hl, hf]

/-- Settles O9: the fetch reads the placed cells back, and they decode to the instruction that was stored. -/
theorem storedInstructionIsTheOneRun : Obligations.StoredInstructionIsTheOneRun :=
  fun _ _ hwf hl hpc hi => step_of_decodeAt hl hpc (decodeAt_place hwf hi)

end Sys2Proof.Proofs

/-!
PROOFS. The encoding (30_encoding.md R50 to R54, R60, R64): what `decode` answers, and that the cells of an instruction
and the instruction say the same.
-/

namespace Sys2Proof.Proofs

open Sys2Proof.Machine Sys2Proof.Statements

/-! ## What decode answers -/

/-- The digit of the mode a number selects is the number's units digit (R51). -/
@[simp] theorem digit_ofDigit (d : Nat) : (Mode.ofDigit d).digit = d % 10 := by
  have hlt : d % 10 < 10 := Nat.mod_lt d (by decide)
  unfold Mode.ofDigit
  generalize d % 10 = u at hlt ⊢
  interval_cases u <;> rfl

theorem isOpcode_opcode (i : Instr) : isOpcode i.opcode := by
  cases i <;> simp [isOpcode, Instr.opcode]

/-- `i` says what the cells `w, p1, p2, p3` say: the opcode, the mode digits and excess, the parameter words
(R50, R51). -/
structure SaysCells (i : Instr) (w p1 p2 p3 : Word) : Prop where
  opcode : i.opcode = w.toNat % 100
  digits : modeDigits i.operands i.excess = w.toNat / 100
  words : i.operands.map (fun o => o.2.word) = [p1, p2, p3].take i.operands.length

theorem decode_of_neg {w : Word} (h : w.toInt < 0) (p1 p2 p3 : Word) :
    decode w p1 p2 p3 = .error (.negativeWord w) :=
  if_pos h

/-- A non-negative word decodes to the instruction that says its cells, or names its unknown opcode (R52, R60). -/
theorem decode_of_nonneg {w : Word} (h : 0 ≤ w.toInt) (p1 p2 p3 : Word) :
    (∃ i, decode w p1 p2 p3 = .ok i ∧ SaysCells i w p1 p2 p3) ∨
      (¬isOpcode (w.toNat % 100) ∧ decode w p1 p2 p3 = .error (.unknownOpcode (w.toNat % 100))) := by
  simp only [decode, if_neg (not_lt.mpr h)]
  split
  case h_10 hop => exact .inl ⟨_, rfl, hop.symm, rfl, rfl⟩
  case h_11 =>
    refine .inr ⟨?_, rfl⟩
    simp only [imp_false] at *
    unfold isOpcode
    omega
  all_goals
    rename_i hop
    refine .inl ⟨_, rfl, hop.symm, ?_, rfl⟩
    simp only [Instr.operands, Instr.excess, modeDigits, digit_ofDigit]
    omega

theorem saysCells_of_decode {w p1 p2 p3 : Word} {i : Instr} (h : decode w p1 p2 p3 = .ok i) :
    0 ≤ w.toInt ∧ SaysCells i w p1 p2 p3 := by
  obtain hneg | hpos := lt_or_ge w.toInt 0
  · cases (decode_of_neg hneg p1 p2 p3).symm.trans h
  · obtain ⟨j, hj, hs⟩ | ⟨-, he⟩ := decode_of_nonneg hpos p1 p2 p3
    · cases hj.symm.trans h
      exact ⟨hpos, hs⟩
    · cases he.symm.trans h

theorem wordValue_of_saysCells {i : Instr} {w p1 p2 p3 : Word} (h : SaysCells i w p1 p2 p3) :
    i.wordValue = w.toNat := by
  rw [Instr.wordValue, h.opcode, h.digits, Nat.mod_add_div]

theorem encode_of_saysCells {i : Instr} {w p1 p2 p3 : Word} (h : SaysCells i w p1 p2 p3) :
    encode i = [w, p1, p2, p3].take i.length := by
  rw [encode, wordValue_of_saysCells h, h.words, BitVec.ofNat_toNat, BitVec.setWidth_eq, Instr.length, Nat.add_comm,
    List.take_succ_cons]

/-- Settles O1: the cells of the encoding stand before whatever follows, so `decode` reads them. -/
theorem decodeOfEncodeIsTheInstruction : Obligations.DecodeOfEncodeIsTheInstruction := by
  intro i q1 q2 q3 hi
  refine decode_of_encode_cells hi (cell := fun k => (encode i ++ [q1, q2, q3]).getD k 0) fun k hk => ?_
  have hlen : (encode i).length = i.length := (encoding_statement i).1
  exact List.getD_append _ _ _ _ (by omega)

/-- Settles O2: an instruction that says what the cells say has them as its encoding, and its word is the first. -/
theorem encodeOfDecodeIsTheCells : Obligations.EncodeOfDecodeIsTheCells := by
  intro w p1 p2 p3 i h
  obtain ⟨hpos, hs⟩ := saysCells_of_decode h
  refine ⟨encode_of_saysCells hs, decide_eq_true ?_⟩
  have := BitVec.toInt_pos_iff.mp hpos
  rw [wordValue_of_saysCells hs]
  omega

/-- Settles O5: a negative word is rejected as one, and any other is rejected only where no instruction has its
opcode. -/
theorem decodeRejectsExactlyTheUnknownOpcodes : Obligations.DecodeRejectsExactlyTheUnknownOpcodes := by
  intro w p1 p2 p3 e
  obtain hneg | hpos := lt_or_ge w.toInt 0
  · simp [decode_of_neg hneg, hneg, not_le.mpr hneg, eq_comm]
  · obtain ⟨i, hi, hs⟩ | ⟨hop, he⟩ := decode_of_nonneg hpos p1 p2 p3
    · have hop : isOpcode (w.toNat % 100) := hs.opcode ▸ isOpcode_opcode i
      simp [hi, hop, not_lt.mpr hpos]
    · simp [he, hop, hpos, not_lt.mpr hpos, eq_comm]

/-! ## The length of an instruction -/

/-- The operand count of R53's table, by the opcode alone. -/
def operandCount (op : Nat) : Nat :=
  if op = 1 ∨ op = 2 ∨ op = 7 ∨ op = 8 then 3
  else if op = 5 ∨ op = 6 then 2
  else if op = 99 then 0
  else 1

theorem operands_length (i : Instr) : i.operands.length = operandCount i.opcode := by
  cases i <;> rfl

/-- Words with one opcode field decode alike: if one names an instruction, so does the other, of the same length
(R50, R52). -/
theorem decode_length_of_mod_eq {v p1 p2 p3 w q1 q2 q3 : Word} {i : Instr} (hi : decode v p1 p2 p3 = .ok i)
    (hw : 0 ≤ w.toInt) (hmod : w.toNat % 100 = v.toNat % 100) :
    ∃ j, decode w q1 q2 q3 = .ok j ∧ j.length = i.length := by
  obtain ⟨-, hs⟩ := saysCells_of_decode hi
  obtain ⟨j, hj, ht⟩ | ⟨hop, -⟩ := decode_of_nonneg hw q1 q2 q3
  · refine ⟨j, hj, ?_⟩
    rw [Instr.length, Instr.length, operands_length, operands_length, ht.opcode, hs.opcode, hmod]
  · rw [hmod, ← hs.opcode] at hop
    exact absurd (isOpcode_opcode i) hop

/-- Operand `k`'s parameter word is the `k`-th cell after the instruction word (R50). -/
theorem operand_word_of_saysCells {s : State} {i : Instr} {a : Nat} {w : Word}
    (h : SaysCells i w (s.mem.read (a + 1)) (s.mem.read (a + 2)) (s.mem.read (a + 3))) {k : Nat} {o : Role × Operand}
    (ho : i.operands[k]? = some o) : o.2.word = s.mem.read (a + (1 + k)) := by
  have hlt : k < i.operands.length := (List.getElem?_eq_some_iff.mp ho).1
  have hk : k < 3 := by
    obtain ⟨-, -, hlen, -⟩ := encoding_statement i
    simp only [Instr.length, maxLength] at hlen
    omega
  have hw := congrArg (·[k]?) h.words
  simp only [List.getElem?_map, ho, List.getElem?_take_of_lt hlt] at hw
  interval_cases k <;> exact Option.some.inj hw

/-- A non-jump that completes advances `pc` by its length, and an abandoned one changes nothing but the status and the
record (R13, R47). -/
theorem exec_pc_of_not_jump {i : Instr} {s t : State}
    (hi : ∀ x c g, i ≠ .jumpIfTrue x c g ∧ i ≠ .jumpIfFalse x c g) (h : exec i s = .next t) :
    t.pc.toNat = s.pc.toNat + i.length ∨ t = { s with status := t.status, fault := t.fault } := by
  obtain hb | ⟨e, -, rfl⟩ := exec_next.mp h
  · refine .inl ((body_pc_toNat hb).resolve_right ?_)
    rintro ⟨x, c, g, hj | hj, -⟩
    · exact (hi x c g).1 hj
    · exact (hi x c g).2 hj
  · cases e <;> exact .inr rfl

/-- Settles O3, part by part: the operand count is the opcode's, the words are the cells after `pc`, and `pc` moves as
`body_pc_toNat` says. -/
theorem lengthIsToldFromTheOpcodeAlone : Obligations.LengthIsToldFromTheOpcodeAlone := by
  intro s i h
  obtain ⟨-, -, hlen, -⟩ := encoding_statement i
  obtain ⟨-, hs⟩ := saysCells_of_decode h
  exact ⟨rfl, hlen, fun _ _ ho => operand_word_of_saysCells hs ho,
    fun _ _ _ _ hw hmod => decode_length_of_mod_eq h hw hmod, fun hi _ _ ht => exec_pc_of_not_jump hi ht⟩

/-- Settles O4: each listed word is evaluated. -/
theorem listedEncodingsDecode : Obligations.ListedEncodingsDecode :=
  ⟨rfl, rfl, rfl, rfl, rfl, rfl, rfl, rfl, rfl, rfl⟩

end Sys2Proof.Proofs

/-!
PROOFS. Program text (30_encoding.md R63; 60_exceptions.md R141): the loader reads a token exactly when it is an integer
in range, and the shortest forms it writes are such tokens.
-/

namespace Sys2Proof.Proofs

open Sys2Proof.Machine Sys2Proof.Statements

/-! ## The integer a token is -/

theorem blank_iff_isBlank {c : Char} : Blank c ↔ isBlank c = true := isBlank_iff.symm

theorem isBlank_digit {c : Char} (h : '0' ≤ c ∧ c ≤ '9') : isBlank c = false := by
  rw [Bool.eq_false_iff, ne_eq, isBlank_iff]
  rintro (rfl | rfl | rfl | rfl) <;> exact absurd h (by decide)

/-- `cs` is the integer `x` without blanks: a sign or none, then digits (R63). -/
def SignedDigits (cs : List Char) (x : Int) : Prop :=
  ∃ ds, ds ≠ [] ∧ AllDigits ds ∧
    ((cs = ds ∧ x = decimalValue ds) ∨ (cs = '+' :: ds ∧ x = decimalValue ds) ∨
      (cs = '-' :: ds ∧ x = -(decimalValue ds : Int)))

theorem readNat_iff {cs : List Char} {n : Nat} :
    readNat cs = some n ↔ cs ≠ [] ∧ AllDigits cs ∧ n = decimalValue cs :=
  readNat_eq_some

/-- A sign is no digit: text of digits alone is read by the third case of `readInt`. -/
theorem readInt_of_digits {ds : List Char} (h : AllDigits ds) :
    readInt ds = (readNat ds).map fun n : Nat => (n : Int) := by
  unfold readInt
  split
  · exact absurd (h '-' (by simp)) (by decide)
  · exact absurd (h '+' (by simp)) (by decide)
  · rfl

theorem readInt_iff {cs : List Char} {x : Int} : readInt cs = some x ↔ SignedDigits cs x := by
  constructor
  · intro h
    unfold readInt at h
    split at h <;> obtain ⟨n, hn, rfl⟩ := Option.map_eq_some_iff.mp h <;>
      obtain ⟨hne, hd, rfl⟩ := readNat_iff.mp hn
    · exact ⟨_, hne, hd, .inr (.inr ⟨rfl, rfl⟩)⟩
    · exact ⟨_, hne, hd, .inr (.inl ⟨rfl, rfl⟩)⟩
    · exact ⟨_, hne, hd, .inl ⟨rfl, rfl⟩⟩
  · rintro ⟨ds, hne, hd, h⟩
    have hn : readNat ds = some (decimalValue ds) := readNat_iff.mpr ⟨hne, hd, rfl⟩
    obtain ⟨rfl, rfl⟩ | ⟨rfl, rfl⟩ | ⟨rfl, rfl⟩ := h
    · rw [readInt_of_digits hd, hn]; rfl
    · simp [readInt, hn]
    · simp [readInt, hn]

/-- A token is an integer between blanks (R63). -/
theorem tokenIs_iff {t : List Char} {x : Int} :
    TokenIs t x ↔ ∃ b cs c, (∀ a ∈ b, Blank a) ∧ (∀ a ∈ c, Blank a) ∧ t = b ++ cs ++ c ∧ SignedDigits cs x := by
  constructor
  · rintro ⟨b, ds, c, hb, hc, hne, hd, ⟨ht, hx⟩ | ⟨ht, hx⟩ | ⟨ht, hx⟩⟩
    · exact ⟨b, ds, c, hb, hc, ht, ds, hne, hd, .inl ⟨rfl, hx⟩⟩
    · exact ⟨b, '+' :: ds, c, hb, hc, ht, ds, hne, hd, .inr (.inl ⟨rfl, hx⟩)⟩
    · exact ⟨b, '-' :: ds, c, hb, hc, ht, ds, hne, hd, .inr (.inr ⟨rfl, hx⟩)⟩
  · rintro ⟨b, cs, c, hb, hc, ht, ds, hne, hd, ⟨rfl, hx⟩ | ⟨rfl, hx⟩ | ⟨rfl, hx⟩⟩
    · exact ⟨b, cs, c, hb, hc, hne, hd, .inl ⟨ht, hx⟩⟩
    · exact ⟨b, ds, c, hb, hc, hne, hd, .inr (.inl ⟨ht, hx⟩)⟩
    · exact ⟨b, ds, c, hb, hc, hne, hd, .inr (.inr ⟨ht, hx⟩)⟩

/-- The characters of an integer are its digits, and at most a sign before them. -/
theorem signedDigits_mem {cs : List Char} {x : Int} (h : SignedDigits cs x) {a : Char} (ha : a ∈ cs) :
    ('0' ≤ a ∧ a ≤ '9') ∨ a = '+' ∨ a = '-' := by
  obtain ⟨ds, -, hd, ⟨rfl, -⟩ | ⟨rfl, -⟩ | ⟨rfl, -⟩⟩ := h
  · exact .inl (hd a ha)
  · exact (List.mem_cons.mp ha).elim (fun h => .inr (.inl h)) (fun h => .inl (hd a h))
  · exact (List.mem_cons.mp ha).elim (fun h => .inr (.inr h)) (fun h => .inl (hd a h))

theorem signedDigits_ne_nil {cs : List Char} {x : Int} (h : SignedDigits cs x) : cs ≠ [] := by
  obtain ⟨ds, hne, -, ⟨rfl, -⟩ | ⟨rfl, -⟩ | ⟨rfl, -⟩⟩ := h
  · exact hne
  · simp
  · simp

theorem signedDigits_not_blank {cs : List Char} {x : Int} (h : SignedDigits cs x) {a : Char} (ha : a ∈ cs) :
    isBlank a = false := by
  obtain hd | rfl | rfl := signedDigits_mem h ha
  · exact isBlank_digit hd
  · rfl
  · rfl

/-- The loader trims a token and reads the rest: it finds the integer that the token is, and no other (R63). -/
theorem readInt_trimBlanks {t : List Char} {x : Int} : readInt (trimBlanks t) = some x ↔ TokenIs t x := by
  rw [readInt_iff, tokenIs_iff]
  constructor
  · intro h
    obtain ⟨b, c, hb, hc, ht⟩ := exists_trimBlanks t
    exact ⟨b, _, c, fun a ha => blank_iff_isBlank.mpr (hb a ha), fun a ha => blank_iff_isBlank.mpr (hc a ha), ht, h⟩
  · rintro ⟨b, cs, c, hb, hc, rfl, h⟩
    rwa [trimBlanks_append (fun a ha => blank_iff_isBlank.mp (hb a ha)) (fun a ha => blank_iff_isBlank.mp (hc a ha))
      (fun a ha => signedDigits_not_blank h (List.mem_of_mem_head? ha))
      (fun a ha => signedDigits_not_blank h (List.mem_of_mem_getLast? ha)) (signedDigits_ne_nil h)]

/-- A token is one integer at most. -/
theorem tokenIs_unique {t : List Char} {x y : Int} (hx : TokenIs t x) (hy : TokenIs t y) : x = y :=
  Option.some.inj ((readInt_trimBlanks.mpr hx).symm.trans (readInt_trimBlanks.mpr hy))

theorem inRange_iff_fits64 {x : Int} : InRange x ↔ fits64 x = true := by
  rw [fits64, decide_eq_true_iff, InRange]

/-- A token is read as a cell exactly when it is the integer that the cell holds (R63). -/
theorem readToken_eq_some {t : List Char} {w : Word} : readToken t = some w ↔ TokenIs t w.toInt := by
  unfold readToken
  constructor
  · intro h
    obtain ⟨x, hx, h⟩ := Option.bind_eq_some_iff.mp h
    split_ifs at h with hf
    rw [← Option.some.inj h, wrap64_toInt hf]
    exact readInt_trimBlanks.mp hx
  · intro h
    simp [readInt_trimBlanks.mpr h, fits64_toInt, wrap64_toInt_self]

/-- A token that is no integer in range is not read (R63, R141). -/
theorem readToken_eq_none {t : List Char} (h : ∀ x, InRange x → ¬TokenIs t x) : readToken t = none := by
  rw [Option.eq_none_iff_forall_ne_some]
  exact fun w hw => h w.toInt (inRange_iff_fits64.mpr (fits64_toInt w)) (readToken_eq_some.mp hw)

theorem comma_not_mem_of_tokenIs {t : List Char} {x : Int} (h : TokenIs t x) : ',' ∉ t := by
  obtain ⟨b, cs, c, hb, hc, rfl, hs⟩ := tokenIs_iff.mp h
  simp only [List.mem_append, not_or]
  refine ⟨⟨fun hm => ?_, fun hm => ?_⟩, fun hm => ?_⟩
  · exact absurd (blank_iff_isBlank.mp (hb _ hm)) (by decide)
  · exact absurd (signedDigits_mem hs hm) (by decide)
  · exact absurd (blank_iff_isBlank.mp (hc _ hm)) (by decide)

/-! ## The tokens of a text -/

theorem splitCommas_comma (ds : List Char) : splitCommas (',' :: ds) = [] :: splitCommas ds :=
  splitCommas_append (t := []) (by simp) ds

/-- A comma ends a token, whatever stands before it. -/
theorem splitCommas_append_comma (cs ds : List Char) :
    splitCommas (cs ++ ',' :: ds) = splitCommas cs ++ splitCommas ds := by
  induction cs with
  | nil => exact splitCommas_comma ds
  | cons c cs ih =>
    obtain ⟨t, ts, ht⟩ := List.exists_cons_of_ne_nil (splitCommas_ne_nil cs)
    simp only [List.cons_append, splitCommas, ih, ht]
    split_ifs <;> rfl

/-- A text of tokens, each with the cell it is, parses to those cells in order (R63). -/
theorem parseProgram_of_tokens {ts : List (List Char × Word)} (hne : ts ≠ [])
    (h : ∀ t ∈ ts, TokenIs t.1 t.2.toInt) :
    parseProgram (List.intercalate [','] (ts.map Prod.fst)) = .ok (ts.map Prod.snd) := by
  have hcomma : ∀ t ∈ ts.map Prod.fst, ',' ∉ t :=
    List.forall_mem_map.mpr fun t ht => comma_not_mem_of_tokenIs (h t ht)
  have hread : List.Forall₂ (fun t w => readToken t = some w) (ts.map Prod.fst) (ts.map Prod.snd) := by
    rw [List.forall₂_map_left_iff, List.forall₂_map_right_iff, List.forall₂_same]
    exact fun t ht => readToken_eq_some.mpr (h t ht)
  rw [parseProgram, splitCommas_intercalate (by simpa using hne) hcomma, readTokens_eq_some.mpr hread]

theorem parseProgram_of_token {t : List Char} {w : Word} (h : TokenIs t w.toInt) : parseProgram t = .ok [w] := by
  simpa [List.intercalate] using parseProgram_of_tokens (ts := [(t, w)]) (by simp) (by simpa using h)

/-- One token that is no integer in range spoils the text (R141). -/
theorem parseProgram_of_bad_token {cs t : List Char} (ht : t ∈ splitCommas cs) (h : ∀ x, InRange x → ¬TokenIs t x) :
    parseProgram cs = .error .parseError := by
  rw [parseProgram, readTokens_eq_none ht (readToken_eq_none h)]

theorem not_tokenIs_nil (x : Int) : ¬TokenIs [] x := by
  rw [← readInt_trimBlanks]
  exact (by simp [trimBlanks, readInt, readNat])

theorem parseProgram_of_empty_token {cs : List Char} (h : [] ∈ splitCommas cs) :
    parseProgram cs = .error .parseError :=
  parseProgram_of_bad_token h fun x _ => not_tokenIs_nil x

/-! ## The shortest form of a number -/

/-- The character of a decimal digit, and its value read back. -/
theorem digitChar_spec {d : Nat} (h : d < 10) :
    ('0' ≤ Char.ofNat (48 + d) ∧ Char.ofNat (48 + d) ≤ '9') ∧ (Char.ofNat (48 + d)).toNat - 48 = d := by
  interval_cases d <;> decide

theorem allDigits_showNat (n : Nat) : AllDigits (showNat n) := by
  intro a ha
  unfold showNat at ha
  split_ifs at ha
  · rw [List.mem_singleton.mp ha]
    decide
  · obtain ⟨d, hd, rfl⟩ := List.mem_map.mp ha
    exact (digitChar_spec (Nat.digits_lt_base (by decide) (List.mem_reverse.mp hd))).1

theorem showNat_ne_nil (n : Nat) : showNat n ≠ [] := by
  unfold showNat
  split_ifs with h
  · simp
  · simpa using Nat.digits_ne_nil_iff_ne_zero.mpr h

/-- Reading the characters of decimal digits is the number they are the digits of. -/
theorem decimalValue_digitChars {ds : List Nat} (h : ∀ d ∈ ds, d < 10) :
    decimalValue (ds.reverse.map fun d => Char.ofNat (48 + d)) = Nat.ofDigits 10 ds := by
  induction ds with
  | nil => rfl
  | cons d ds ih =>
    have hd : (Char.ofNat (48 + d)).toNat - '0'.toNat = d := (digitChar_spec (h d (by simp))).2
    have ih := ih fun e he => h e (by simp [he])
    unfold decimalValue at ih ⊢
    rw [List.reverse_cons, List.map_append, List.foldl_append, ih, Nat.ofDigits_cons, List.map_singleton,
      List.foldl_cons, List.foldl_nil, hd]
    exact Nat.add_comm _ _

theorem decimalValue_showNat (n : Nat) : decimalValue (showNat n) = n := by
  unfold showNat
  split_ifs with h
  · rw [h]
    rfl
  · rw [decimalValue_digitChars fun d hd => Nat.digits_lt_base (by decide) hd, Nat.ofDigits_digits]

theorem signedDigits_showNat (n : Nat) : SignedDigits (showNat n) n :=
  ⟨_, showNat_ne_nil n, allDigits_showNat n, .inl ⟨rfl, by rw [decimalValue_showNat]⟩⟩

theorem signedDigits_neg_showNat (n : Nat) : SignedDigits ('-' :: showNat n) (-(n : Int)) :=
  ⟨_, showNat_ne_nil n, allDigits_showNat n, .inr (.inr ⟨rfl, by rw [decimalValue_showNat]⟩)⟩

/-- The shortest form of a cell is its integer, a minus sign before the magnitude of a negative one (R63). -/
theorem signedDigits_showWord (w : Word) : SignedDigits (showWord w) w.toInt := by
  unfold showWord
  split_ifs with h
  · have hw : -(w.toInt.natAbs : Int) = w.toInt := by omega
    simpa only [hw] using signedDigits_neg_showNat w.toInt.natAbs
  · have hw : (w.toInt.natAbs : Int) = w.toInt := by omega
    simpa only [hw] using signedDigits_showNat w.toInt.natAbs

theorem tokenIs_of_signedDigits {cs : List Char} {x : Int} (h : SignedDigits cs x) : TokenIs cs x :=
  tokenIs_iff.mpr ⟨[], cs, [], by simp, by simp, by simp, h⟩

/-- An integer out of range is refused, alone or among other tokens (R63, R141). -/
theorem parseProgram_of_out_of_range {cs : List Char} {x : Int} (h : SignedDigits cs x) (hx : ¬InRange x) :
    parseProgram cs = .error .parseError := by
  have ht := tokenIs_of_signedDigits h
  refine parseProgram_of_bad_token (t := cs) ?_ fun y hy hty => hx (tokenIs_unique ht hty ▸ hy)
  rw [splitCommas_of_not_mem (comma_not_mem_of_tokenIs ht)]
  exact List.mem_singleton.mpr rfl

theorem serializeProgram_eq_intercalate (ws : List Word) :
    serializeProgram ws = List.intercalate [','] (ws.map showWord) := by
  induction ws with
  | nil => rfl
  | cons w ws ih =>
    cases ws with
    | nil => simp [serializeProgram, List.intercalate]
    | cons v vs => simp [serializeProgram, ih, List.intercalate]

/-! ## The obligations -/

/-- Settles O52: the canonical text is the shortest forms joined by commas, and each is a token of its cell. -/
theorem programTextRoundTrips : Obligations.ProgramTextRoundTrips := by
  intro ws hne
  have h : ∀ t ∈ ws.map fun w => (showWord w, w), TokenIs t.1 t.2.toInt :=
    List.forall_mem_map.mpr fun w _ => tokenIs_of_signedDigits (signedDigits_showWord w)
  rw [serializeProgram_eq_intercalate]
  simpa [Function.comp_def] using parseProgram_of_tokens (by simpa using hne) h

/-- Settles O53: texts of tokens by `readToken_eq_some`; each refused text has a token that is empty or out of range. -/
theorem programTextRefusals : Obligations.ProgramTextRefusals := by
  refine ⟨fun ts hne h => parseProgram_of_tokens hne h, fun ts hcomma ⟨t, ht, hbad⟩ => ?_, fun b c w hb hc => ?_,
    parseProgram_of_empty_token (List.mem_singleton.mpr rfl), fun ws => ?_, fun cs => ?_, fun ws cs => ?_,
    fun n hn => ?_, fun n hn => ?_⟩
  · rw [← splitCommas_intercalate (List.ne_nil_of_mem ht) hcomma] at ht
    exact parseProgram_of_bad_token ht hbad
  · exact parseProgram_of_token (tokenIs_iff.mpr ⟨b, _, c, hb, hc, rfl, signedDigits_showWord w⟩)
  · exact parseProgram_of_empty_token (by simp [splitCommas_append_comma, splitCommas])
  · exact parseProgram_of_empty_token (by simp [splitCommas_comma])
  · exact parseProgram_of_empty_token (by simp [splitCommas_append_comma, splitCommas_comma])
  · exact parseProgram_of_out_of_range (signedDigits_showNat n) (by simp only [InRange, intMin, intMax]; omega)
  · exact parseProgram_of_out_of_range (signedDigits_neg_showNat n) (by simp only [InRange, intMin, intMax]; omega)

end Sys2Proof.Proofs

/-!
PROOFS. Operand resolution against the fault order (30_encoding.md R55 to R58; 60_exceptions.md R138): each resolution
of the machine fails exactly with the fault that the order names for it, so without one every operand resolves.
-/

namespace Sys2Proof.Proofs

open Sys2Proof.Machine Sys2Proof.Statements

/-! ## Failing with exactly one fault -/

/-- `r` fails exactly when `f` names a fault, and then with that fault (R6). -/
def FailsWith {α : Type} (r : Except Abort α) (f : Option (FaultKind × Int)) : Prop :=
  ∀ e, r = .error e ↔ ∃ k v, f = some (k, v) ∧ e = .fault k v

theorem failsWith_ok {α : Type} (a : α) : FailsWith (.ok a : Except Abort α) none := by
  simp [FailsWith]

theorem failsWith_raise {α : Type} (k : FaultKind) (v : Int) :
    FailsWith (raise k v : Except Abort α) (some (k, v)) := by
  intro e
  simp [raise, eq_comm]

theorem exists_ok_of_failsWith {α : Type} {r : Except Abort α} (h : FailsWith r none) : ∃ a, r = .ok a := by
  cases r with
  | ok a => exact ⟨a, rfl⟩
  | error e => simpa using (h e).mp rfl

/-- One part after another: the fault is the first part's, or else the second's (R138). -/
theorem failsWith_bind {α β : Type} {r : Except Abort α} {g : α → Except Abort β} {f f' : Option (FaultKind × Int)}
    (h : FailsWith r f) (h' : ∀ a, r = .ok a → FailsWith (g a) f') : FailsWith (r >>= g) (f.or f') := by
  cases r with
  | error e =>
    obtain ⟨k, v, rfl, rfl⟩ := (h e).mp rfl
    exact failsWith_raise k v
  | ok a =>
    have hf : f = none := by
      rw [Option.eq_none_iff_forall_ne_some]
      rintro ⟨k, v⟩ rfl
      cases (h (.fault k v)).mpr ⟨k, v, rfl, rfl⟩
    rw [hf]
    exact h' a rfl

/-! ## The parts of a resolution -/

/-- The fault of the instruction word's fetch and of the excess digits (R59, R138 items 1 and 3). -/
def fetchFault (s : State) (x : Nat) : Option (FaultKind × Int) :=
  if s.cfg.memMax.val ≤ s.pc.toNat then some (.memoryExhausted, (s.pc.toNat : Int))
  else if s.cfg.excess = .fault ∧ x ≠ 0 then some (.invalidAddressMode, (x : Int))
  else none

theorem decodeFault_eq_or (s : State) (i : Instr) :
    decodeFault s i = (fetchFault s i.excess).or (operandsFault s 1 i.operands) := by
  unfold decodeFault fetchFault
  split_ifs <;> rfl

theorem operandsFault_cons (s : State) (i : Nat) (o : Role × Operand) (os : List (Role × Operand)) :
    operandsFault s i (o :: os) = (operandFault s i o.1 o.2).or (operandsFault s (i + 1) os) := by
  rw [operandsFault]
  cases operandFault s i o.1 o.2 <;> rfl

/-- The growth of the operands before it changes no operand's fault (R61). -/
theorem operandFault_of_grown {s g : State} (h : Grown s g) : operandFault g = operandFault s := by
  funext i r o
  simp only [operandFault, addressFault, h.cfg, h.pc, h.rb]

/-- A read of memory before the rest: its bound, then the fault of what follows (R32, R36). -/
theorem failsWith_memRead_bind {α : Type} {a : Nat} {s : State} {g : Word × State → Except Abort α}
    {f : Option (FaultKind × Int)} (h : ∀ q, memRead a s = .ok q → FailsWith (g q) f) :
    FailsWith (memRead a s >>= g) (if s.cfg.memMax.val ≤ a then some (.memoryExhausted, (a : Int)) else f) := by
  split_ifs with ha
  · rw [memRead_error.mpr ⟨ha, rfl⟩]
    exact failsWith_raise _ _
  · have hok := memRead_ok.mpr ⟨not_le.mp ha, rfl⟩
    rw [hok]
    exact h _ hok

theorem failsWith_readAddress (a : Int) (s : State) : FailsWith (readAddress a s) (addressFault s a) := by
  unfold readAddress addressFault memRead
  split_ifs with h1 h2 h3 h3
  · exact failsWith_raise _ _
  · omega
  · exact failsWith_ok _
  · rw [Int.toNat_of_nonneg (not_lt.mp h1)]
    exact failsWith_raise _ _
  · omega

theorem failsWith_targetAddress (a : Int) (s : State) : FailsWith (targetAddress a s) (addressFault s a) := by
  unfold targetAddress addressFault
  split_ifs with h1 h2 h3 h3
  · exact failsWith_raise _ _
  · omega
  · exact failsWith_ok _
  · exact failsWith_raise _ _
  · omega

theorem failsWith_readOperand (i : Nat) (o : Operand) (s : State) :
    FailsWith (readOperand i o s) (operandFault s i .read o) := by
  refine failsWith_memRead_bind fun q hq => ?_
  obtain ⟨-, rfl⟩ := memRead_ok.mp hq
  obtain ⟨m, p⟩ := o
  cases m with
  | absolute => exact failsWith_readAddress _ _
  | immediate => exact failsWith_ok _
  | relative => exact failsWith_readAddress _ _
  | reserved k => exact failsWith_raise _ _

theorem failsWith_writeOperand (i : Nat) (o : Operand) (s : State) :
    FailsWith (writeOperand i o s) (operandFault s i .write o) := by
  refine failsWith_memRead_bind fun q hq => ?_
  obtain ⟨-, rfl⟩ := memRead_ok.mp hq
  obtain ⟨m, p⟩ := o
  cases m with
  | absolute => exact failsWith_targetAddress _ _
  | immediate => exact failsWith_raise _ _
  | relative => exact failsWith_targetAddress _ _
  | reserved k => exact failsWith_raise _ _

theorem failsWith_fetchWord (x : Nat) (s : State) : FailsWith (fetchWord x s) (fetchFault s x) := by
  refine failsWith_memRead_bind fun q hq => ?_
  obtain ⟨-, rfl⟩ := memRead_ok.mp hq
  dsimp only
  split_ifs
  · exact failsWith_raise _ _
  · exact failsWith_ok _

/-! ## The resolution of each format -/

theorem failsWith_resolveR_parts (x : Nat) (a : Operand) (s : State) :
    FailsWith (resolveR x a s) ((fetchFault s x).or (operandFault s 1 .read a)) := by
  refine failsWith_bind (failsWith_fetchWord x s) fun s0 h0 => ?_
  rw [← operandFault_of_grown (fetchWord_grown h0)]
  exact failsWith_readOperand 1 a s0

theorem failsWith_resolveRR_parts (x : Nat) (a b : Operand) (s : State) :
    FailsWith (resolveRR x a b s)
      (((fetchFault s x).or (operandFault s 1 .read a)).or (operandFault s 2 .read b)) := by
  refine failsWith_bind (failsWith_resolveR_parts x a s) fun q hq => ?_
  rw [← operandFault_of_grown (resolveR_grown hq), ← Option.or_none (o := operandFault q.2 2 .read b)]
  exact failsWith_bind (failsWith_readOperand 2 b q.2) fun _ _ => failsWith_ok _

section Formats
variable {s : State} {i : Instr} {a b t : Operand}

theorem failsWith_fetchWord_of_operands (ho : i.operands = []) :
    FailsWith (fetchWord i.excess s) (decodeFault s i) := by
  have h := failsWith_fetchWord i.excess s
  rwa [decodeFault_eq_or, ho, operandsFault, Option.or_none]

theorem failsWith_resolveR (ho : i.operands = [(.read, a)]) :
    FailsWith (resolveR i.excess a s) (decodeFault s i) := by
  have h := failsWith_resolveR_parts i.excess a s
  rwa [decodeFault_eq_or, ho, operandsFault_cons, operandsFault, Option.or_none]

theorem failsWith_resolveW (ho : i.operands = [(.write, t)]) :
    FailsWith (resolveW i.excess t s) (decodeFault s i) := by
  rw [decodeFault_eq_or, ho, operandsFault_cons, operandsFault, Option.or_none]
  refine failsWith_bind (failsWith_fetchWord i.excess s) fun s0 h0 => ?_
  rw [← operandFault_of_grown (fetchWord_grown h0)]
  exact failsWith_writeOperand 1 t s0

theorem failsWith_resolveRR (ho : i.operands = [(.read, a), (.read, b)]) :
    FailsWith (resolveRR i.excess a b s) (decodeFault s i) := by
  have h := failsWith_resolveRR_parts i.excess a b s
  rwa [decodeFault_eq_or, ho, operandsFault_cons, operandsFault_cons, operandsFault, Option.or_none, ← Option.or_assoc]

theorem failsWith_resolveRRW (ho : i.operands = [(.read, a), (.read, b), (.write, t)]) :
    FailsWith (resolveRRW i.excess a b t s) (decodeFault s i) := by
  rw [decodeFault_eq_or, ho, operandsFault_cons, operandsFault_cons, operandsFault_cons, operandsFault,
    ← Option.or_assoc, ← Option.or_assoc]
  refine failsWith_bind (failsWith_resolveRR_parts i.excess a b s) fun q hq => ?_
  rw [← operandFault_of_grown (resolveRR_grown hq)]
  exact failsWith_bind (failsWith_writeOperand 3 t q.2.2) fun _ _ => failsWith_ok _

end Formats

/-! ## Without a decode fault -/

theorem fetchFault_eq_none {s : State} {x : Nat} :
    fetchFault s x = none ↔ s.pc.toNat < s.cfg.memMax.val ∧ (s.cfg.excess = .ignore ∨ x = 0) := by
  unfold fetchFault
  cases s.cfg.excess <;> split_ifs <;> simp_all

theorem pc_add_lt_of_operandFault {s : State} {i : Nat} {r : Role} {o : Operand} (h : operandFault s i r o = none) :
    s.pc.toNat + i < s.cfg.memMax.val := by
  unfold operandFault at h
  split_ifs at h with hpc
  exact not_le.mp hpc

/-- Operands without a fault have none each, and their parameter words lie below MEM_MAX (R36, R138 item 4). -/
theorem operandsFault_eq_none {s : State} {i : Nat} {os : List (Role × Operand)} (h : operandsFault s i os = none) :
    (∀ k o, os[k]? = some o → operandFault s (i + k) o.1 o.2 = none) ∧
      (s.pc.toNat + i ≤ s.cfg.memMax.val → s.pc.toNat + (i + os.length) ≤ s.cfg.memMax.val) := by
  induction os generalizing i with
  | nil => exact ⟨by simp, id⟩
  | cons o os ih =>
    obtain ⟨ho, hos⟩ := Option.or_eq_none_iff.mp (operandsFault_cons s i o os ▸ h)
    obtain ⟨hall, hfit⟩ := ih hos
    have hpc := pc_add_lt_of_operandFault ho
    refine ⟨fun k p hp => ?_, fun _ => ?_⟩
    · cases k with
      | zero => exact Option.some.inj hp ▸ ho
      | succ k => simpa [Nat.add_assoc, Nat.add_comm 1] using hall k p hp
    · have := hfit (by omega)
      simp only [List.length_cons]
      omega

theorem canRun_of_decodeFault {s : State} {i : Instr} (h : decodeFault s i = none) : CanRun s i.excess i.length := by
  obtain ⟨hf, hos⟩ := Option.or_eq_none_iff.mp (decodeFault_eq_or s i ▸ h)
  obtain ⟨hpc, hx⟩ := fetchFault_eq_none.mp hf
  exact ⟨(operandsFault_eq_none hos).2 hpc, hx⟩

/-! ## The fault of an abandoned instruction -/

theorem fault_of_failsWith {α : Type} {r : Except Abort α} {f : Option (FaultKind × Int)} {k : FaultKind} {v : Int}
    (h : FailsWith r f) (he : r = .error (.fault k v)) : f = some (k, v) := by
  obtain ⟨k', v', hf, hkv⟩ := (h _).mp he
  cases hkv
  exact hf

section Formats
variable {s : State} {i : Instr} {k : FaultKind} {v : Int}

theorem runRRW_fault {alu : Config → Word → Word → Except Abort Word} {a b t : Operand}
    (hi : body i s = runRRW alu i.excess a b t s) (ho : i.operands = [(.read, a), (.read, b), (.write, t)])
    (halu : ∀ {cfg va vb e}, alu cfg va vb = .error e → ∃ z, e = .fault .arithmeticOverflow z)
    (h : body i s = .error (.fault k v)) :
    decodeFault s i = some (k, v) ∨ k = .arithmeticOverflow := by
  obtain hr | ⟨va, vb, ad, s1, -, he⟩ := runRRW_error.mp (hi ▸ h)
  · exact .inl (fault_of_failsWith (failsWith_resolveRRW ho) hr)
  · obtain ⟨z, hz⟩ := halu he
    cases hz
    exact .inr rfl

theorem runJump_fault {holds : Word → Bool} {c t : Operand} (hi : body i s = runJump holds i.excess c t s)
    (ho : i.operands = [(.read, c), (.read, t)]) (h : body i s = .error (.fault k v)) :
    decodeFault s i = some (k, v) ∨ k = .negativeJumpTarget := by
  obtain hr | ⟨vc, vt, s1, -, -, -, he⟩ := runJump_error.mp (hi ▸ h)
  · exact .inl (fault_of_failsWith (failsWith_resolveRR ho) hr)
  · cases he
    exact .inr rfl

end Formats

theorem chk64_error_overflow {cfg : Config} {z : Int} {e : Abort} (h : chk64 cfg z = .error e) :
    ∃ v, e = .fault .arithmeticOverflow v := by
  obtain ⟨-, -, rfl⟩ := chk64_error.mp h
  exact ⟨_, rfl⟩

/-- A fault of an instruction is the one its decoding reports, or one of dispatch (R138 items 4 and 6). -/
theorem body_fault {i : Instr} {s : State} {k : FaultKind} {v : Int} (h : body i s = .error (.fault k v)) :
    decodeFault s i = some (k, v) ∨ k = .arithmeticOverflow ∨ k = .negativeJumpTarget := by
  cases i with
  | add x a b t => exact (runRRW_fault (add_body x a b t s) rfl chk64_error_overflow h).imp_right .inl
  | multiply x a b t => exact (runRRW_fault (multiply_body x a b t s) rfl chk64_error_overflow h).imp_right .inl
  | lessThan x a b t => exact (runRRW_fault (lessThan_body x a b t s) rfl (by simp) h).imp_right .inl
  | equals x a b t => exact (runRRW_fault (equals_body x a b t s) rfl (by simp) h).imp_right .inl
  | jumpIfTrue x c t => exact (runJump_fault (jumpIfTrue_body x c t s) rfl h).imp_right .inr
  | jumpIfFalse x c t => exact (runJump_fault (jumpIfFalse_body x c t s) rfl h).imp_right .inr
  | input x t =>
    obtain hr | ⟨-, -, he⟩ := input_body_error.mp h
    · exact .inl (fault_of_failsWith (failsWith_resolveW (i := .input x t) rfl) hr)
    · cases he
  | output x a =>
    exact .inl (fault_of_failsWith (failsWith_resolveR (i := .output x a) rfl) (output_body_error.mp h))
  | adjustRelativeBase x a =>
    obtain hr | ⟨va, s1, -, he⟩ := adjust_body_error.mp h
    · exact .inl (fault_of_failsWith (failsWith_resolveR (i := .adjustRelativeBase x a) rfl) hr)
    · obtain ⟨z, hz⟩ := chk64_error_overflow he
      cases hz
      exact .inr (.inl rfl)
  | halt x =>
    exact .inl (fault_of_failsWith (failsWith_fetchWord_of_operands (i := .halt x) rfl) (halt_body_error.mp h))

/-- Settles O12: no part of the resolution has a fault, so each answers; an abort is then a fault of dispatch, since by
`body_fault` any other is the decode fault. -/
theorem withoutDecodeFaultEveryOperandResolves : Obligations.WithoutDecodeFaultEveryOperandResolves := by
  intro s i h
  obtain ⟨hf, hos⟩ := Option.or_eq_none_iff.mp (decodeFault_eq_or s i ▸ h)
  refine ⟨canRun_of_decodeFault h, exists_ok_of_failsWith (hf ▸ failsWith_fetchWord i.excess s), fun k o hk => ?_,
    fun t hs ht hst => ?_⟩
  · have ho : operandFault s (k + 1) o.1 o.2 = none := Nat.add_comm 1 k ▸ (operandsFault_eq_none hos).1 k o hk
    constructor
    · intro hr
      obtain ⟨⟨v, t⟩, hv⟩ := exists_ok_of_failsWith (ho ▸ hr ▸ failsWith_readOperand (k + 1) o.2 s)
      exact ⟨v, t, hv, readsAs_of_readOperand hv⟩
    · intro hw
      obtain ⟨⟨n, t⟩, hn⟩ := exists_ok_of_failsWith (ho ▸ hw ▸ failsWith_writeOperand (k + 1) o.2 s)
      exact ⟨n, t, hn, namesCell_of_writeOperand hn⟩
  · obtain hb | ⟨e, he, rfl⟩ := exec_next.mp ht
    · have := body_status hb
      simp [hst, hs.symm] at this
    · cases e with
      | awaitingInput => cases hst
      | fault k v =>
        exact ((body_fault he).resolve_left (by simp [h])).imp (fun hk => ⟨_, rfl, hk⟩) (fun hk => ⟨_, rfl, hk⟩)

end Sys2Proof.Proofs

/-!
PROOFS. Arithmetic (40_arithmetic.md): what each format's operand resolution answers when the operands resolve, the
checked result, and Add and Multiply as one argument over the ALU's operation.
-/

namespace Sys2Proof.Proofs

open Sys2Proof.Machine Sys2Proof.Statements

/-! ## The length that the touched cells make -/

theorem lenAfter_nil (s : State) (n : Nat) : lenAfter s n [] = max s.mem.len (s.pc.toNat + n) := rfl

theorem lenAfter_append (s : State) (n : Nat) (os : List Operand) (o : Operand) :
    lenAfter s n (os ++ [o]) = max (lenAfter s n os) (topOf s.rb o) := by
  simp [lenAfter]

/-- The fetch of one more cell of the instruction, after whatever operands came before it (R34, R61). -/
theorem lenAfter_succ (s : State) (n : Nat) (os : List Operand) :
    lenAfter s (n + 1) os = max (lenAfter s n os) (s.pc.toNat + n + 1) := by
  induction os using List.reverseRecOn with
  | nil =>
    simp only [lenAfter_nil]
    omega
  | append_singleton os o ih => rw [lenAfter_append, lenAfter_append, ih, max_right_comm]

theorem len_le_lenAfter (s : State) (n : Nat) (os : List Operand) : s.mem.len ≤ lenAfter s n os := by
  induction os using List.reverseRecOn with
  | nil => exact le_max_left _ _
  | append_singleton os o ih => exact lenAfter_append s n os o ▸ le_max_of_le_left ih

/-! ## Operands that resolve -/

/-- `s` once `n` cells of the instruction at `pc` were fetched and the read operands `os` were read (R34, R61). -/
def afterReads (s : State) (n : Nat) (os : List Operand) : State :=
  { s with mem := ⟨s.mem.cells, lenAfter s n os⟩ }

@[simp] theorem afterReads_pc (s : State) (n : Nat) (os : List Operand) : (afterReads s n os).pc = s.pc := rfl
@[simp] theorem afterReads_rb (s : State) (n : Nat) (os : List Operand) : (afterReads s n os).rb = s.rb := rfl

theorem afterReads_wf {s : State} (h : s.mem.wf = true) (n : Nat) (os : List Operand) :
    (afterReads s n os).mem.wf = true :=
  cellsOrdered_mono h le_rfl (len_le_lenAfter s n os)

/-- The fetch of an operand's parameter word grows memory to the next cell of the instruction. -/
theorem afterReads_grow (s : State) (n : Nat) (os : List Operand) :
    { afterReads s n os with mem := (afterReads s n os).mem.grow ((afterReads s n os).pc.toNat + n) } =
      afterReads s (n + 1) os := by
  simp only [afterReads, Memory.grow, lenAfter_succ]

/-- The converse of `namesCell_operandAddress`. -/
theorem operandAddress_of_namesCell {s : State} {o : Operand} {n : Nat} (h : NamesCell s o n) :
    (o.mode = .absolute ∨ o.mode = .relative) ∧ operandAddress o s.rb = n ∧ topOf s.rb o = n + 1 := by
  obtain ⟨-, ⟨hm, ha⟩ | ⟨hm, ha⟩⟩ := h
  · exact ⟨.inl hm, by simp only [operandAddress, hm, ha], by simp only [topOf, hm, ha, Int.toNat_natCast]⟩
  · exact ⟨.inr hm, by simp only [operandAddress, hm, ha], by simp only [topOf, hm, ha, Int.toNat_natCast]⟩

section Resolve
variable {s : State} {x n ad : Nat} {a b t o : Operand} {os : List Operand} {v va vb : Word}

/-- The operand after `n` cells and the operands `os` resolves to its value, whatever was read before it. -/
theorem readOperand_afterReads (hpc : s.pc.toNat + n < s.cfg.memMax.val) (hv : ReadsAs s o v) :
    readOperand n o (afterReads s n os) = .ok (v, afterReads s (n + 1) (os ++ [o])) := by
  refine readOperand_ok.mpr ⟨hpc, ?_⟩
  rw [afterReads_grow, afterReads_rb]
  obtain ⟨hm, rfl⟩ | ⟨c, hc, rfl⟩ := hv
  · refine .inl ⟨hm, ?_⟩
    simp only [afterReads, lenAfter_append, topOf, hm, Nat.max_zero]
  · obtain ⟨hm, ha, htop⟩ := operandAddress_of_namesCell hc
    refine .inr ⟨hm, ?_⟩
    rw [ha]
    refine readAddress_ok.mpr ⟨by omega, memRead_ok.mpr ⟨hc.1, ?_⟩⟩
    simp only [afterReads, lenAfter_append, htop, Memory.grow, Int.toNat_natCast, Memory.read]

theorem writeOperand_afterReads (hpc : s.pc.toNat + n < s.cfg.memMax.val) (ht : NamesCell s t ad) :
    writeOperand n t (afterReads s n os) = .ok (ad, afterReads s (n + 1) os) := by
  obtain ⟨hm, ha, -⟩ := operandAddress_of_namesCell ht
  refine writeOperand_ok.mpr ⟨hpc, hm, ?_⟩
  rw [afterReads_grow, afterReads_rb, ha]
  exact targetAddress_ok.mpr ⟨by omega, ht.1, rfl⟩

/-- Every cell of an instruction that can run lies below MEM_MAX (R36). -/
theorem pc_add_lt_of_canRun {k : Nat} (h : CanRun s x n) (hk : k < n) : s.pc.toNat + k < s.cfg.memMax.val :=
  Nat.lt_of_lt_of_le (Nat.add_lt_add_left hk _) h.1

theorem fetchWord_of_canRun (hn : 0 < n) (h : CanRun s x n) : fetchWord x s = .ok (afterReads s 1 []) := by
  refine fetchWord_ok.mpr ⟨pc_add_lt_of_canRun h hn, ?_, rfl⟩
  rintro ⟨hfault, hne⟩
  obtain hignore | hzero := h.2
  · simp [hignore] at hfault
  · exact hne hzero

theorem resolveR_of_canRun (hn : 1 < n) (h : CanRun s x n) (ha : ReadsAs s a va) :
    resolveR x a s = .ok (va, afterReads s 2 [a]) :=
  resolveR_ok.mpr ⟨_, fetchWord_of_canRun (by omega) h, readOperand_afterReads (pc_add_lt_of_canRun h (by omega)) ha⟩

theorem resolveRR_of_canRun (hn : 2 < n) (h : CanRun s x n) (ha : ReadsAs s a va) (hb : ReadsAs s b vb) :
    resolveRR x a b s = .ok (va, vb, afterReads s 3 [a, b]) :=
  resolveRR_ok.mpr ⟨_, resolveR_of_canRun (by omega) h ha,
    readOperand_afterReads (pc_add_lt_of_canRun h (by omega)) hb⟩

theorem resolveRRW_of_canRun (h : CanRun s x 4) (ha : ReadsAs s a va) (hb : ReadsAs s b vb) (ht : NamesCell s t ad) :
    resolveRRW x a b t s = .ok (va, vb, ad, afterReads s 4 [a, b]) :=
  resolveRRW_ok.mpr ⟨_, resolveRR_of_canRun (by omega) h ha hb,
    writeOperand_afterReads (pc_add_lt_of_canRun h (by omega)) ht⟩

end Resolve

/-! ## The checked result -/

/-- `wrap64` sees its argument modulo 2^64 only (R6). -/
theorem wrap64_add_mul (z q : Int) : wrap64 (z + q * 2 ^ 64) = wrap64 z := by
  refine BitVec.eq_of_toInt_eq ?_
  simp only [wrap64, BitVec.toInt_ofInt]
  exact Int.add_mul_bmod_self_right ..

theorem eq_wrap64_of_congr {z q : Int} {r : Word} (h : r.toInt = z + q * 2 ^ 64) : r = wrap64 z := by
  rw [← wrap64_add_mul z q, ← h, wrap64_toInt_self]

theorem chk64_of_checked {cfg : Config} {z : Int} {r : Word} (h : Checked cfg z r) : chk64 cfg z = .ok r := by
  obtain ⟨hin, hr⟩ | ⟨-, hwrap, q, hr⟩ := h
  · exact chk64_ok.mpr ⟨.inl (inRange_iff_fits64.mp hin), by rw [← hr, wrap64_toInt_self]⟩
  · exact chk64_ok.mpr ⟨.inr hwrap, eq_wrap64_of_congr hr⟩

theorem chk64_of_overflows {cfg : Config} {z : Int} (h : Overflows cfg z) :
    chk64 cfg z = .error (.fault .arithmeticOverflow (wrap64 z).toInt) := by
  obtain ⟨hout, hpolicy⟩ := h
  rw [inRange_iff_fits64, Bool.not_eq_true] at hout
  exact chk64_error.mpr ⟨hout, hpolicy, rfl⟩

/-- The cell value congruent to `z` is unique, and it is the one the model records (R6). -/
theorem wrap64_toInt_of_wrapsTo {z w : Int} (h : WrapsTo z w) : (wrap64 z).toInt = w := by
  obtain ⟨hin, q, rfl⟩ := h
  rw [← wrap64_add_mul z q, wrap64_toInt (inRange_iff_fits64.mp hin)]

/-! ## The fault an instruction raises -/

theorem exec_of_body_fault {i : Instr} {s : State} {k : FaultKind} {v : Int} (h : body i s = .error (.fault k v)) :
    exec i s = .next (faultState s k v) :=
  exec_next.mpr (.inr ⟨_, h, rfl⟩)

theorem raised_faultState (s : State) (k : FaultKind) (v : Int) : Raised s (faultState s k v) k :=
  ⟨_, rfl, rfl⟩

theorem addressFault_kind {s : State} {a : Int} {f : FaultKind × Int} (h : addressFault s a = some f) :
    f.1 ∈ decodeKinds := by
  unfold addressFault at h
  split_ifs at h
  · cases h
    simp [decodeKinds]
  · cases h
    simp [decodeKinds]

theorem operandFault_kind {s : State} {i : Nat} {r : Role} {o : Operand} {f : FaultKind × Int}
    (h : operandFault s i r o = some f) : f.1 ∈ decodeKinds := by
  unfold operandFault at h
  split_ifs at h
  · cases h
    simp [decodeKinds]
  · split at h
    case h_3 => cases h
    case h_4 | h_5 => exact addressFault_kind h
    all_goals
      cases h
      simp [decodeKinds]

theorem operandsFault_kind {s : State} {i : Nat} {os : List (Role × Operand)} {f : FaultKind × Int}
    (h : operandsFault s i os = some f) : f.1 ∈ decodeKinds := by
  induction os generalizing i with
  | nil => cases h
  | cons o os ih =>
    rw [operandsFault_cons, Option.or_eq_some_iff] at h
    obtain ho | ⟨-, hos⟩ := h
    · exact operandFault_kind ho
    · exact ih hos

theorem decodeFault_kind {s : State} {i : Instr} {f : FaultKind × Int} (h : decodeFault s i = some f) :
    f.1 ∈ decodeKinds := by
  unfold decodeFault at h
  split_ifs at h
  · cases h
    simp [decodeKinds]
  · cases h
    simp [decodeKinds]
  · exact operandsFault_kind h

/-- The kinds of an instruction's aborts are the kinds of the faults it is seen to raise (R137). -/
theorem raisesOnly_of_body_fault {i : Instr} {ks : List FaultKind}
    (h : ∀ {s k v}, body i s = .error (.fault k v) → k ∈ ks) : RaisesOnly i ks := by
  intro s u hs hu hfaulted
  obtain hb | ⟨e, he, rfl⟩ := exec_next.mp hu
  · have := body_status hb
    simp [hfaulted, hs.symm] at this
  · cases e with
    | fault k v => exact ⟨k, h he, raised_faultState s k v⟩
    | awaitingInput => cases hfaulted

/-- A non-jump seen to have raised a fault aborted with it: completing, it would have moved `pc` (R13). -/
theorem body_fault_of_raised {i : Instr} {s u : State} {k : FaultKind}
    (hi : ∀ x c g, i ≠ .jumpIfTrue x c g ∧ i ≠ .jumpIfFalse x c g) (h : exec i s = .next u) (hr : Raised s u k) :
    ∃ v, body i s = .error (.fault k v) := by
  obtain ⟨r, rfl, rfl⟩ := hr
  obtain hb | ⟨e, he, hu⟩ := exec_next.mp h
  · obtain hpc | ⟨x, c, g, hj | hj, -⟩ := body_pc_toNat hb
    · simp [Instr.length] at hpc
    · exact absurd hj (hi x c g).1
    · exact absurd hj (hi x c g).2
  · cases e with
    | fault k v =>
      cases congrArg State.fault hu
      exact ⟨v, he⟩
    | awaitingInput => cases congrArg State.status hu

/-! ## Format RRW -/

section RRW
variable {alu : Config → Word → Word → Except Abort Word} {i : Instr} {x ad : Nat} {a b t : Operand} {s : State}
  {va vb r : Word} {k : FaultKind} {v : Int}

/-- An instruction of format RRW whose ALU answers `r` stores it in the target cell (R71, R72, R85, R86). -/
theorem exec_runRRW_stores (hi : body i s = runRRW alu x a b t s) (hwf : s.mem.wf = true) (h : CanRun s x 4)
    (ha : ReadsAs s a va) (hb : ReadsAs s b vb) (ht : NamesCell s t ad) (hr : alu s.cfg va vb = .ok r) :
    ∃ u, exec i s = .next u ∧ StoredAndAdvanced s u 4 ad r [a, b, t] ∧ SameItems s u := by
  have hbody := runRRW_ok.mpr ⟨va, vb, ad, _, r, resolveRRW_of_canRun h ha hb ht, hr, rfl⟩
  refine ⟨_, exec_next.mpr (.inl (hi.trans hbody)), ⟨fun c => ?_, ?_, toNat_pc_advance h.1⟩,
    rfl, rfl, rfl, rfl, rfl, rfl, rfl⟩
  · exact write_read (afterReads_wf hwf 4 [a, b]) ad c r
  · have htop := (operandAddress_of_namesCell ht).2.2
    exact (htop ▸ lenAfter_append s 4 [a, b] t).symm

/-- An instruction of format RRW whose ALU raises enters that fault (R137, R138 item 6). -/
theorem exec_runRRW_raises (hi : body i s = runRRW alu x a b t s) (h : CanRun s x 4) (ha : ReadsAs s a va)
    (hb : ReadsAs s b vb) (ht : NamesCell s t ad) (hr : alu s.cfg va vb = .error (.fault k v)) :
    exec i s = .next (faultState s k v) :=
  exec_of_body_fault (hi.trans (runRRW_error.mpr (.inr ⟨va, vb, ad, _, resolveRRW_of_canRun h ha hb ht, hr⟩)))

/-- A fault of format RRW is one of decode or the ALU's own (R138 items 4 and 6). -/
theorem decodeKind_or_alu_of_runRRW_fault (hi : body i s = runRRW alu i.excess a b t s)
    (ho : i.operands = [(.read, a), (.read, b), (.write, t)]) (h : body i s = .error (.fault k v)) :
    k ∈ decodeKinds ∨ ∃ va vb, alu s.cfg va vb = .error (.fault k v) := by
  obtain hr | ⟨va, vb, ad, s1, -, he⟩ := runRRW_error.mp (hi ▸ h)
  · exact .inl (decodeFault_kind (fault_of_failsWith (failsWith_resolveRRW ho) hr))
  · exact .inr ⟨va, vb, he⟩

end RRW

/-! ## Add and Multiply -/

/-- The ALU of Add and Multiply: the exact result of `f` on the signed values, checked (R71, R72, R73). -/
def checkedAlu (f : Int → Int → Int) (cfg : Config) (va vb : Word) : Except Abort Word :=
  chk64 cfg (f va.toInt vb.toInt)

theorem add_body_checkedAlu (x : Nat) (a b t : Operand) (s : State) :
    body (.add x a b t) s = runRRW (checkedAlu (· + ·)) x a b t s := rfl

theorem multiply_body_checkedAlu (x : Nat) (a b t : Operand) (s : State) :
    body (.multiply x a b t) s = runRRW (checkedAlu (· * ·)) x a b t s := rfl

section Checked
variable {f : Int → Int → Int} {i : Instr} {a b t : Operand}
  (hi : ∀ s, body i s = runRRW (checkedAlu f) i.excess a b t s)
  (ho : i.operands = [(.read, a), (.read, b), (.write, t)])
include hi

theorem exec_checkedAlu_overflows {s : State} {va vb : Word} {ad : Nat} (h : CanRun s i.excess 4)
    (ha : ReadsAs s a va) (hb : ReadsAs s b vb) (ht : NamesCell s t ad) (hz : Overflows s.cfg (f va.toInt vb.toInt)) :
    exec i s = .next (faultState s .arithmeticOverflow (wrap64 (f va.toInt vb.toInt)).toInt) :=
  exec_runRRW_raises (hi s) h ha hb ht (chk64_of_overflows hz)

include ho

theorem raisesOnly_checkedAlu : RaisesOnly i (.arithmeticOverflow :: decodeKinds) := by
  refine raisesOnly_of_body_fault fun {s k v} h => ?_
  obtain hk | ⟨va, vb, he⟩ := decodeKind_or_alu_of_runRRW_fault (hi s) ho h
  · exact List.mem_cons_of_mem _ hk
  · obtain ⟨z, hz⟩ := chk64_error_overflow he
    cases hz
    exact List.mem_cons_self

theorem not_raised_overflow_of_wrap {s u : State} (hwrap : s.cfg.overflow = .wrap) (h : exec i s = .next u) :
    ¬Raised s u .arithmeticOverflow := by
  intro hr
  have hnotJump : ∀ x c g, i ≠ .jumpIfTrue x c g ∧ i ≠ .jumpIfFalse x c g := by
    intro x c g
    constructor <;> rintro rfl <;> simp [Instr.operands] at ho
  obtain ⟨v, hv⟩ := body_fault_of_raised hnotJump h hr
  obtain hk | ⟨va, vb, he⟩ := decodeKind_or_alu_of_runRRW_fault (hi s) ho hv
  · simp [decodeKinds] at hk
  · obtain ⟨-, hpolicy, -⟩ := chk64_error.mp he
    simp [hwrap] at hpolicy

end Checked

/-- Settles O14: format RRW with the checked sum as its ALU. -/
theorem addStoresTheSum : Obligations.AddStoresTheSum :=
  ⟨fun x a b t s _ _ _ _ hwf h ha hb ht hr =>
      exec_runRRW_stores (add_body_checkedAlu x a b t s) hwf h ha hb ht (chk64_of_checked hr),
    fun x a b t _ _ _ _ h ha hb ht hz =>
      ⟨_, exec_checkedAlu_overflows (add_body_checkedAlu x a b t) h ha hb ht hz, raised_faultState _ _ _⟩,
    fun x a b t => raisesOnly_checkedAlu (add_body_checkedAlu x a b t) rfl,
    fun x a b t _ _ hwrap hu => not_raised_overflow_of_wrap (add_body_checkedAlu x a b t) rfl hwrap hu⟩

/-- Settles O15: format RRW with the checked product as its ALU. -/
theorem multiplyStoresTheProduct : Obligations.MultiplyStoresTheProduct :=
  ⟨fun x a b t s _ _ _ _ hwf h ha hb ht hr =>
      exec_runRRW_stores (multiply_body_checkedAlu x a b t s) hwf h ha hb ht (chk64_of_checked hr),
    fun x a b t _ _ _ _ h ha hb ht hz =>
      ⟨_, exec_checkedAlu_overflows (multiply_body_checkedAlu x a b t) h ha hb ht hz, raised_faultState _ _ _⟩,
    fun x a b t => raisesOnly_checkedAlu (multiply_body_checkedAlu x a b t) rfl,
    fun x a b t _ _ hwrap hu => not_raised_overflow_of_wrap (multiply_body_checkedAlu x a b t) rfl hwrap hu⟩

theorem exec_adjust_overflows {x : Nat} {a : Operand} {s : State} {v : Word} (h : CanRun s x 2) (ha : ReadsAs s a v)
    (hz : Overflows s.cfg (s.rb.toInt + v.toInt)) :
    exec (.adjustRelativeBase x a) s =
      .next (faultState s .arithmeticOverflow (wrap64 (s.rb.toInt + v.toInt)).toInt) :=
  exec_of_body_fault
    (adjust_body_error.mpr (.inr ⟨v, _, resolveR_of_canRun (by omega) h ha, chk64_of_overflows hz⟩))

/-- Settles O24: each overflow enters the fault with `wrap64` of the exact result, which is the value congruent to
it. -/
theorem overflowRecordsTheWrappedResult : Obligations.OverflowRecordsTheWrappedResult := by
  refine ⟨fun x a b t s va vb ad w h ha hb ht => ⟨fun hz hw => ?_, fun hz hw => ?_⟩, fun x a s v w h ha hz hw => ?_⟩
  · rw [exec_checkedAlu_overflows (add_body_checkedAlu x a b t) h ha hb ht hz, wrap64_toInt_of_wrapsTo hw]
  · rw [exec_checkedAlu_overflows (multiply_body_checkedAlu x a b t) h ha hb ht hz, wrap64_toInt_of_wrapsTo hw]
  · rw [exec_adjust_overflows h ha hz, wrap64_toInt_of_wrapsTo hw]

end Sys2Proof.Proofs

/-!
PROOFS. Input and Output (41_io.md): the resolution of Input's target, what each instruction does when its operand
resolves, and that a decode fault comes before either does anything.
-/

namespace Sys2Proof.Proofs

open Sys2Proof.Machine Sys2Proof.Statements

/-- When an instruction's operand resolution has exactly the faults of decode and every failure of it abandons the
instruction, the decode faults are taken (R137, R138). -/
theorem decodeFaultsTaken_of_failsWith {α : Type} {i : Instr} {resolve : State → Except Abort α}
    (hresolve : ∀ s, FailsWith (resolve s) (decodeFault s i))
    (hbody : ∀ {s e}, resolve s = .error e → body i s = .error e) : DecodeFaultsTaken i :=
  fun s k v h => exec_of_body_fault (hbody ((hresolve s _).mpr ⟨k, v, h, rfl⟩))

/-! ## Input -/

section Input
variable {s : State} {x n ad : Nat} {t : Operand} {v : Word} {rest : List Word}

theorem resolveW_of_canRun (hn : 1 < n) (h : CanRun s x n) (ht : NamesCell s t ad) :
    resolveW x t s = .ok (ad, afterReads s 2 []) :=
  resolveW_ok.mpr ⟨_, fetchWord_of_canRun (by omega) h, writeOperand_afterReads (pc_add_lt_of_canRun h hn) ht⟩

theorem exec_input_stores_front (hwf : s.mem.wf = true) (h : CanRun s x 2) (ht : NamesCell s t ad)
    (hq : s.inq = v :: rest) :
    ∃ u, exec (.input x t) s = .next u ∧ StoredAndAdvanced s u 2 ad v [t] ∧ SameItems { s with inq := rest } u := by
  have hbody := input_body_ok.mpr ⟨ad, _, v, rest, resolveW_of_canRun (by omega) h ht, hq, rfl⟩
  refine ⟨_, exec_next.mpr (.inl hbody), ⟨fun c => ?_, ?_, toNat_pc_advance h.1⟩, rfl, rfl, rfl, rfl, rfl, rfl, rfl⟩
  · exact write_read (afterReads_wf hwf 2 []) ad c v
  · have htop := (operandAddress_of_namesCell ht).2.2
    exact (htop ▸ lenAfter_append s 2 [] t).symm

theorem exec_input_suspends (h : CanRun s x 2) (ht : NamesCell s t ad) (hq : s.inq = []) :
    exec (.input x t) s = .next { s with status := .awaitingInput } :=
  exec_next.mpr (.inr ⟨.awaitingInput,
    input_body_error.mpr (.inr ⟨⟨ad, _, resolveW_of_canRun (by omega) h ht⟩, hq, rfl⟩), rfl⟩)

end Input

/-- Settles O18: the target resolves before the queue is looked at, so a decode fault comes first, and then the queue
alone decides between the store and the suspension. -/
theorem inputTakesTheFrontOrSuspends : Obligations.InputTakesTheFrontOrSuspends :=
  ⟨fun _ _ _ _ _ _ hwf h ht hq => exec_input_stores_front hwf h ht hq,
    fun _ _ _ _ h ht hq => exec_input_suspends h ht hq,
    fun x t => decodeFaultsTaken_of_failsWith (fun _ => failsWith_resolveW (i := .input x t) rfl)
      fun h => input_body_error.mpr (.inl h)⟩

/-! ## Output -/

/-- In a machine left running, the controller is told the first value that the step appended (R76, R105). -/
theorem stepOutcome_of_append {s u : State} {v : Word} {vs : List Word} (hs : u.status = .running)
    (hout : u.out = s.out ++ v :: vs) : stepOutcome s u = .produced v := by
  simp only [stepOutcome, hs, hout, List.drop_left]

theorem exec_output_appends {s : State} {x : Nat} {a : Operand} {v : Word} (h : CanRun s x 2) (ha : ReadsAs s a v) :
    exec (.output x a) s = .next (advance 2 { afterReads s 2 [a] with out := s.out ++ [v] }) :=
  exec_next.mpr (.inl (output_body_ok.mpr ⟨v, _, resolveR_of_canRun (by omega) h ha, rfl⟩))

/-- Output's only fault is the one its decoding reports: once its operand resolves, it completes (R76). -/
theorem raisesOnly_output (x : Nat) (a : Operand) : RaisesOnly (.output x a) decodeKinds :=
  raisesOnly_of_body_fault fun h =>
    decodeFault_kind (fault_of_failsWith (failsWith_resolveR (i := .output x a) rfl) (output_body_error.mp h))

/-- Settles O19: the operand's read only grows memory, and the one value appended is the one the controller finds. -/
theorem outputAppendsTheValue : Obligations.OutputAppendsTheValue :=
  ⟨fun _ _ _ _ h ha =>
      ⟨_, exec_output_appends h ha, ⟨fun _ => rfl, rfl⟩, toNat_pc_advance h.1, ⟨rfl, rfl, rfl, rfl, rfl, rfl, rfl⟩,
        fun hs => stepOutcome_of_append hs rfl⟩,
    raisesOnly_output⟩

end Sys2Proof.Proofs

/-!
PROOFS. JumpIfTrue and JumpIfFalse (42_jumps.md): format RR once for every condition, when the jump is taken, when it
is not, and when its target is negative; each instruction then only says what its condition is.
-/

namespace Sys2Proof.Proofs

open Sys2Proof.Machine Sys2Proof.Statements

theorem toInt_eq_zero_iff {v : Word} : v.toInt = 0 ↔ v = 0 :=
  BitVec.toInt_inj (y := 0)

/-- A jump target that is not negative is the same number read as `pc` (R13, R82). -/
theorem toNat_of_toInt_nonneg {v : Word} (h : 0 ≤ v.toInt) : (v.toNat : Int) = v.toInt :=
  (BitVec.toInt_eq_toNat_of_lt (BitVec.toInt_pos_iff.mp h)).symm

/-! ## Format RR -/

section RR
variable {holds : Word → Bool} {i : Instr} {s : State} {x : Nat} {c t : Operand} {vc vt : Word}

section Resolved
variable (hi : body i s = runJump holds x c t s) (h : CanRun s x 3) (hc : ReadsAs s c vc) (ht : ReadsAs s t vt)
include hi h hc ht

theorem exec_runJump_taken (hv : holds vc = true) (hpos : 0 ≤ vt.toInt) :
    ∃ u, exec i s = .next u ∧ OnlyGrew s u 3 [c, t] ∧ (u.pc.toNat : Int) = vt.toInt ∧ SameItems s u := by
  have hjump := runJump_ok.mpr ⟨vc, vt, _, resolveRR_of_canRun (by omega) h hc ht, .inl ⟨hv, hpos, rfl⟩⟩
  exact ⟨_, exec_next.mpr (.inl (hi.trans hjump)), ⟨fun _ => rfl, rfl⟩, toNat_of_toInt_nonneg hpos,
    rfl, rfl, rfl, rfl, rfl, rfl, rfl⟩

theorem exec_runJump_untaken (hv : holds vc = false) :
    ∃ u, exec i s = .next u ∧ OnlyGrew s u 3 [c, t] ∧ u.pc.toNat = s.pc.toNat + 3 ∧ SameItems s u := by
  have hnext := runJump_ok.mpr ⟨vc, vt, _, resolveRR_of_canRun (by omega) h hc ht, .inr ⟨hv, rfl⟩⟩
  exact ⟨_, exec_next.mpr (.inl (hi.trans hnext)), ⟨fun _ => rfl, rfl⟩, toNat_pc_advance h.1,
    rfl, rfl, rfl, rfl, rfl, rfl, rfl⟩

theorem exec_runJump_negative (hv : holds vc = true) (hneg : vt.toInt < 0) :
    exec i s = .next (faultState s .negativeJumpTarget vt.toInt) :=
  exec_of_body_fault (hi.trans (runJump_error.mpr
    (.inr ⟨vc, vt, _, resolveRR_of_canRun (by omega) h hc ht, hv, hneg, rfl⟩)))

end Resolved

/-- A jump resolves both operands before it looks at either value, so a decode fault comes first (R138). -/
theorem decodeFaultsTaken_runJump (hi : ∀ s, body i s = runJump holds i.excess c t s)
    (ho : i.operands = [(.read, c), (.read, t)]) : DecodeFaultsTaken i :=
  decodeFaultsTaken_of_failsWith (fun _ => failsWith_resolveRR ho)
    fun he => (hi _).trans (runJump_error.mpr (.inl he))

end RR

/-! ## JumpIfTrue and JumpIfFalse -/

/-- Settles O20: format RR with the condition that the value is not 0. -/
theorem jumpIfTrueGoesToTheTarget : Obligations.JumpIfTrueGoesToTheTarget := by
  have htaken {v : Word} (hv : v.toInt ≠ 0) : decide (v ≠ 0) = true := decide_eq_true (mt toInt_eq_zero_iff.mpr hv)
  have huntaken {v : Word} (hv : v.toInt = 0) : decide (v ≠ 0) = false :=
    decide_eq_false (not_not_intro (toInt_eq_zero_iff.mp hv))
  exact ⟨fun x c t s _ _ h hc ht hv hpos => exec_runJump_taken (jumpIfTrue_body x c t s) h hc ht (htaken hv) hpos,
    fun x c t s _ _ h hc ht hv => exec_runJump_untaken (jumpIfTrue_body x c t s) h hc ht (huntaken hv),
    fun x c t s _ _ h hc ht hv hneg => exec_runJump_negative (jumpIfTrue_body x c t s) h hc ht (htaken hv) hneg,
    fun x c t => decodeFaultsTaken_runJump (jumpIfTrue_body x c t) rfl⟩

/-- Settles O21: format RR with the condition that the value is 0. -/
theorem jumpIfFalseGoesToTheTarget : Obligations.JumpIfFalseGoesToTheTarget := by
  have htaken {v : Word} (hv : v.toInt = 0) : decide (v = 0) = true := decide_eq_true (toInt_eq_zero_iff.mp hv)
  have huntaken {v : Word} (hv : v.toInt ≠ 0) : decide (v = 0) = false :=
    decide_eq_false (mt toInt_eq_zero_iff.mpr hv)
  exact ⟨fun x c t s _ _ h hc ht hv hpos => exec_runJump_taken (jumpIfFalse_body x c t s) h hc ht (htaken hv) hpos,
    fun x c t s _ _ h hc ht hv => exec_runJump_untaken (jumpIfFalse_body x c t s) h hc ht (huntaken hv),
    fun x c t s _ _ h hc ht hv hneg => exec_runJump_negative (jumpIfFalse_body x c t s) h hc ht (htaken hv) hneg,
    fun x c t => decodeFaultsTaken_runJump (jumpIfFalse_body x c t) rfl⟩

end Sys2Proof.Proofs

/-!
PROOFS. LessThan and Equals (43_compare.md): what the comparison's cell holds, and format RRW for an ALU that answers
whatever its two values are, so that no fault is left but those of decode.
-/

namespace Sys2Proof.Proofs

open Sys2Proof.Machine Sys2Proof.Statements

/-! ## The cell of a comparison -/

theorem boolCell_decide (p : Prop) [Decidable p] : boolCell (decide p) = if p then 1 else 0 := by
  simp only [boolCell, decide_eq_true_eq]

theorem lessThanCell_eq_ite (va vb : Word) : lessThanCell va vb = if va.toInt < vb.toInt then 1 else 0 :=
  boolCell_decide _

/-- The equality of two cells is that of the integers they hold (R86). -/
theorem equalsCell_eq_ite (va vb : Word) : equalsCell va vb = if va.toInt = vb.toInt then 1 else 0 := by
  simp only [equalsCell, boolCell_decide, BitVec.toInt_inj]

/-! ## Format RRW with an ALU that never raises -/

/-- When the ALU of format RRW answers on all values, what is left to fault is decode (R138). -/
theorem raisesOnly_runRRW_total {f : Word → Word → Word} {i : Instr} {a b t : Operand}
    (hi : ∀ s, body i s = runRRW (fun _ va vb => .ok (f va vb)) i.excess a b t s)
    (ho : i.operands = [(.read, a), (.read, b), (.write, t)]) : RaisesOnly i decodeKinds := by
  refine raisesOnly_of_body_fault fun {s k v} h => ?_
  obtain hk | ⟨va, vb, he⟩ := decodeKind_or_alu_of_runRRW_fault (hi s) ho h
  · exact hk
  · cases he

/-! ## LessThan and Equals -/

/-- Settles O16: format RRW, whose ALU answers the signed comparison's cell and never raises. -/
theorem lessThanStoresOneOrZero : Obligations.LessThanStoresOneOrZero :=
  ⟨fun x a b t s va vb _ hwf h ha hb ht =>
      exec_runRRW_stores (lessThan_body x a b t s) hwf h ha hb ht (congrArg Except.ok (lessThanCell_eq_ite va vb)),
    fun x a b t => raisesOnly_runRRW_total (lessThan_body x a b t) rfl⟩

/-- Settles O17: format RRW, whose ALU answers the equality's cell and never raises. -/
theorem equalsStoresOneOrZero : Obligations.EqualsStoresOneOrZero :=
  ⟨fun x a b t s va vb _ hwf h ha hb ht =>
      exec_runRRW_stores (equals_body x a b t s) hwf h ha hb ht (congrArg Except.ok (equalsCell_eq_ite va vb)),
    fun x a b t => raisesOnly_runRRW_total (equals_body x a b t) rfl⟩

end Sys2Proof.Proofs

/-!
PROOFS. AdjustRelativeBase and Halt (44_relbase_halt.md): what each does when it can be fetched and its operand
resolves, and which faults are left: those of decode and, for AdjustRelativeBase, the checked sum's.
-/

namespace Sys2Proof.Proofs

open Sys2Proof.Machine Sys2Proof.Statements

/-! ## AdjustRelativeBase -/

section Adjust
variable {s u : State} {x : Nat} {a : Operand} {v r : Word} {k : FaultKind} {z : Int}

theorem exec_adjust_sets_rb (h : CanRun s x 2) (ha : ReadsAs s a v)
    (hr : chk64 s.cfg (s.rb.toInt + v.toInt) = .ok r) :
    exec (.adjustRelativeBase x a) s = .next (advance 2 { afterReads s 2 [a] with rb := r }) :=
  exec_next.mpr (.inl (adjust_body_ok.mpr ⟨v, _, r, resolveR_of_canRun (by omega) h ha, hr, rfl⟩))

/-- A fault of AdjustRelativeBase is one of decode, or ArithmeticOverflow under the policy that faults (R73, R90). -/
theorem decodeKind_or_overflow_of_adjust_fault (h : body (.adjustRelativeBase x a) s = .error (.fault k z)) :
    k ∈ decodeKinds ∨ (k = .arithmeticOverflow ∧ s.cfg.overflow = .fault) := by
  obtain hr | ⟨v, s1, -, he⟩ := adjust_body_error.mp h
  · exact .inl (decodeFault_kind (fault_of_failsWith (failsWith_resolveR (i := .adjustRelativeBase x a) rfl) hr))
  · obtain ⟨-, hpolicy, hkind⟩ := chk64_error.mp he
    cases hkind
    exact .inr ⟨rfl, hpolicy⟩

theorem raisesOnly_adjust (x : Nat) (a : Operand) :
    RaisesOnly (.adjustRelativeBase x a) (.arithmeticOverflow :: decodeKinds) :=
  raisesOnly_of_body_fault fun h =>
    List.mem_cons.mpr ((decodeKind_or_overflow_of_adjust_fault h).symm.imp_left And.left)

theorem adjust_not_raised_overflow_of_wrap (hwrap : s.cfg.overflow = .wrap)
    (h : exec (.adjustRelativeBase x a) s = .next u) : ¬Raised s u .arithmeticOverflow := by
  intro hr
  obtain ⟨z, hz⟩ := body_fault_of_raised (by simp) h hr
  obtain hk | ⟨-, hpolicy⟩ := decodeKind_or_overflow_of_adjust_fault hz
  · simp [decodeKinds] at hk
  · simp [hwrap] at hpolicy

end Adjust

/-- Settles O22: the operand resolves with the old base, and the checked sum alone decides between the new base and
the overflow. -/
theorem adjustRelativeBaseAddsToTheBase : Obligations.AdjustRelativeBaseAddsToTheBase :=
  ⟨fun _ _ _ _ _ h ha hr =>
      ⟨_, exec_adjust_sets_rb h ha (chk64_of_checked hr), ⟨fun _ => rfl, rfl⟩, toNat_pc_advance h.1,
        rfl, rfl, rfl, rfl, rfl, rfl, rfl⟩,
    fun _ _ _ _ h ha hz => ⟨_, exec_adjust_overflows h ha hz, raised_faultState _ _ _⟩,
    raisesOnly_adjust,
    fun _ _ _ _ hwrap hu => adjust_not_raised_overflow_of_wrap hwrap hu⟩

/-! ## Halt -/

theorem exec_halt_sets_flag {s : State} {x : Nat} (h : CanRun s x 1) :
    exec (.halt x) s = .next (advance 1 { afterReads s 1 [] with halted := true, status := .halted }) :=
  exec_next.mpr (.inl (halt_body_ok.mpr ⟨_, fetchWord_of_canRun (by omega) h, rfl⟩))

/-- Settles O23: Halt only fetches its word, so it completes when that fetch does and otherwise takes its fault. -/
theorem haltSetsTheFlag : Obligations.HaltSetsTheFlag :=
  ⟨fun _ _ h =>
      ⟨_, exec_halt_sets_flag h, ⟨fun _ => rfl, rfl⟩, toNat_pc_advance h.1, rfl, rfl, rfl, rfl, rfl, rfl, rfl⟩,
    fun x => decodeFaultsTaken_of_failsWith (fun _ => failsWith_fetchWord_of_operands (i := .halt x) rfl)
      halt_body_error.mpr⟩

end Sys2Proof.Proofs

/-!
PROOFS. The step as the run-mode controller sees it (50_run_controller.md): why a step suspends, what it appends to
the outputs, what it does with more input behind the queue, and that every host call keeps the invariant.
-/

namespace Sys2Proof.Proofs

open Sys2Proof.Machine Sys2Proof.Statements

/-! ## The invariant under host calls -/

theorem newMachine_inv {cfg : Config} {program : List Word} {s : State} (h : newMachine cfg program = .ok s) :
    s.Inv := by
  have hfit : program.length ≤ cfg.memMax.val := by
    unfold newMachine at h
    split_ifs at h with hle
    exact hle
  obtain rfl := newMachine_ok h
  obtain ⟨hwf, -, hpc, hhalt, hfault⟩ := resetMeetsTheInvariant
  refine ⟨place_wf hwf 0 program, ?_, hpc, hhalt, hfault⟩
  rw [place_len]
  split_ifs
  · exact Nat.zero_le _
  · simpa using hfit

theorem inv_keptByHost : KeptByHost fun s t => s.Inv → t.Inv where
  refl _ := id
  trans h k := k ∘ h
  enter hl h := inv_enter h hl
  step h hs := stepKeepsTheInvariant _ _ hs h
  feed _ _ := id

/-- Settles O37: a machine that a call adds is `new` or a copy, and a transaction is entries, steps and feeds, each of
which keeps the invariant. -/
theorem hostCallsKeepTheInvariant : Obligations.HostCallsKeepTheInvariant := by
  intro fuel c f g r hf h s hs
  obtain rfl | ⟨u, hu, rfl⟩ | ⟨j, tr, u, q, v, hj, hv, rfl⟩ := fleetCall_cases h
  · exact hf s hs
  · obtain hs | hs := List.mem_append.mp hs
    · exact hf s hs
    · obtain rfl := List.mem_singleton.mp hs
      obtain ⟨cfg, program, hnew⟩ | hmem := hu
      · exact newMachine_inv hnew
      · exact hf s hmem
  · obtain hs | rfl := List.mem_or_eq_of_mem_set hs
    · exact hf s hs
    · exact transact_kept inv_keptByHost hv (hf u (List.mem_of_getElem? hj))

/-! ## Every step answers -/

theorem exec_answers (i : Instr) (s : State) : ∃ t, exec i s = .next t := by
  cases hb : body i s with
  | ok t => exact ⟨t, exec_next.mpr (.inl hb)⟩
  | error e => exact ⟨abandon s e, exec_next.mpr (.inr ⟨e, hb, rfl⟩)⟩

theorem step_of_over {s : State} (h : s.Over) : step s = .next s :=
  step_over (enterRun_eq_none.mpr h)

theorem step_of_fetch_ok {s : State} {i : Instr} (hl : Live s) (h : fetch s = .ok i) :
    step s = exec i { s with status := .running } := by
  have hf : fetch { s with status := .running } = .ok i := h
  simp only [step, enterRun_of_live hl, hf]

theorem step_answers (s : State) : ∃ t, step s = .next t := by
  obtain ho | hl := over_or_live s
  · exact ⟨s, step_of_over ho⟩
  · cases hf : fetch s with
    | error e => exact ⟨_, step_of_fetch_error hl hf⟩
    | ok i => exact step_of_fetch_ok hl hf ▸ exec_answers i _

/-- Settles O6: what a step does around `exec` is to enter the run call and to fetch. -/
theorem stepRunsTheDecodedInstruction : Obligations.StepRunsTheDecodedInstruction :=
  fun _ _ hl hpc hd => step_of_decodeAt hl hpc hd

/-- Settles O10: an instruction ends in its committed or its abandoned state, and a failed fetch in the latter. -/
theorem everyInstructionAndStepAnswers : Obligations.EveryInstructionAndStepAnswers :=
  ⟨exec_answers, step_answers⟩

/-! ## Why a step suspends -/

theorem ne_awaitingInput_of_failsWith {α : Type} {r : Except Abort α} {f : Option (FaultKind × Int)}
    (h : FailsWith r f) : r ≠ .error .awaitingInput := by
  intro he
  obtain ⟨k, v, -, hkv⟩ := (h _).mp he
  cases hkv

theorem fetch_error_fault {s : State} {e : Abort} (h : fetch s = .error e) : ∃ k v, e = .fault k v := by
  unfold fetch raise at h
  split at h
  · split at h
    · cases h
    · exact ⟨_, _, (Except.error.inj h).symm⟩
  · exact ⟨_, _, (Except.error.inj h).symm⟩

theorem chk64_ne_awaitingInput (cfg : Config) (z : Int) : chk64 cfg z ≠ .error .awaitingInput := by
  simp [chk64_error]

theorem runRRW_ne_awaitingInput {alu : Config → Word → Word → Except Abort Word}
    (halu : ∀ cfg va vb, alu cfg va vb ≠ .error .awaitingInput) (x : Nat) (a b t : Operand) (s : State) :
    runRRW alu x a b t s ≠ .error .awaitingInput := by
  intro h
  obtain hr | ⟨va, vb, ad, s1, -, he⟩ := runRRW_error.mp h
  · exact ne_awaitingInput_of_failsWith (failsWith_resolveRRW (i := .add x a b t) rfl) hr
  · exact halu _ _ _ he

theorem runJump_ne_awaitingInput (holds : Word → Bool) (x : Nat) (c t : Operand) (s : State) :
    runJump holds x c t s ≠ .error .awaitingInput := by
  intro h
  obtain hr | ⟨vc, vt, s1, -, -, -, he⟩ := runJump_error.mp h
  · exact ne_awaitingInput_of_failsWith (failsWith_resolveRR (i := .jumpIfTrue x c t) rfl) hr
  · cases he

/-- Only an Input that finds the queue empty asks for input (R75, R107). -/
theorem body_awaitingInput {i : Instr} {s : State} (h : body i s = .error .awaitingInput) :
    s.inq = [] ∧ ∃ x o, i = .input x o := by
  cases i with
  | add x a b t | multiply x a b t =>
    simp only [body] at h
    exact absurd h (runRRW_ne_awaitingInput (fun _ _ _ => chk64_ne_awaitingInput _ _) x a b t s)
  | lessThan x a b t | equals x a b t =>
    simp only [body] at h
    exact absurd h (runRRW_ne_awaitingInput (by simp) x a b t s)
  | jumpIfTrue x c t | jumpIfFalse x c t =>
    simp only [body] at h
    exact absurd h (runJump_ne_awaitingInput _ x c t s)
  | input x o =>
    obtain hr | ⟨-, hq, -⟩ := input_body_error.mp h
    · exact absurd hr (resolveW_ne_awaitingInput x o s)
    · exact ⟨hq, x, o, rfl⟩
  | output x a =>
    exact absurd (output_body_error.mp h) (ne_awaitingInput_of_failsWith (failsWith_resolveR (i := .output x a) rfl))
  | adjustRelativeBase x a =>
    obtain hr | ⟨v, s1, -, he⟩ := adjust_body_error.mp h
    · exact absurd hr (ne_awaitingInput_of_failsWith (failsWith_resolveR (i := .adjustRelativeBase x a) rfl))
    · exact absurd he (chk64_ne_awaitingInput _ _)
  | halt x =>
    exact absurd (halt_body_error.mp h)
      (ne_awaitingInput_of_failsWith (failsWith_fetchWord_of_operands (i := .halt x) rfl))

/-- The step of a live machine: a fault of the fetch, or the instruction fetched runs on the machine set Running
(R61, R101, R102). -/
theorem step_live_cases {s t : State} (hl : Live s) (h : step s = .next t) :
    (∃ k v, fetch s = .error (.fault k v) ∧ t = takeFault k v s) ∨
      ∃ i, fetch s = .ok i ∧ exec i { s with status := .running } = .next t := by
  cases hf : fetch s with
  | error e =>
    obtain ⟨k, v, rfl⟩ := fetch_error_fault hf
    rw [step_of_fetch_error hl hf] at h
    exact .inl ⟨k, v, rfl, (Host.Outcome.next.inj h).symm⟩
  | ok i => exact .inr ⟨i, rfl, step_of_fetch_ok hl hf ▸ h⟩

/-- Settles O41: of the ways a step ends, only an Input with the queue empty leaves that status. -/
theorem awaitingInputOnlyAtAnEmptyInput : Obligations.AwaitingInputOnlyAtAnEmptyInput := by
  intro s t h ht
  obtain ho | hl := over_or_live s
  · rw [step_of_over ho] at h
    cases h
    exact absurd ho (not_over_of_live (.inr ht))
  · obtain ⟨k, v, -, rfl⟩ | ⟨i, hf, hx⟩ := step_live_cases hl h
    · cases ht
    · obtain hb | ⟨e, hb, rfl⟩ := exec_next.mp hx
      · obtain hst | hst := body_status hb <;> simp [ht] at hst
      · cases e with
        | fault k v => cases ht
        | awaitingInput =>
          obtain ⟨hq, x, o, rfl⟩ := body_awaitingInput hb
          exact ⟨hl, hq, ⟨x, o, decodeAt_of_fetch hf⟩, rfl⟩

/-! ## What a step appends -/

/-- A step appends no output, or one, and then the machine is Running (R19, R76). -/
theorem step_out {s t : State} (h : step s = .next t) :
    t.out = s.out ∨ ∃ v, t.out = s.out ++ [v] ∧ t.status = .running := by
  obtain ⟨-, rfl⟩ | ⟨-, ⟨e, rfl⟩ | ⟨i, -, hb⟩⟩ := step_cases h
  · exact .inl rfl
  · exact .inl (abandon_out _ e)
  · refine (completed_of_body hb).out.imp_right ?_
    rintro ⟨x, a, rfl⟩
    obtain ⟨v, s1, hr, rfl⟩ := output_body_ok.mp hb
    have g := resolveR_grown hr
    exact ⟨v, congrArg (· ++ [v]) g.out, g.status⟩

theorem stepOutcome_eq_suspend {s t : State} : stepOutcome s t = .suspend ↔ t.status = .awaitingInput := by
  unfold stepOutcome
  cases t.status with
  | running => simp only [reduceCtorEq, iff_false]; split <;> simp
  | awaitingInput | halted | faulted => simp

theorem stepOutcome_ne_produced {s t : State} (h : t.out = s.out) (v : Word) : stepOutcome s t ≠ .produced v := by
  unfold stepOutcome
  rw [h, List.drop_length]
  cases t.status <;> simp

/-- The controller finds a value exactly when the step appended it (R76, R105). -/
theorem stepOutcome_output {s t : State} (h : step s = .next t) :
    (∃ v, stepOutcome s t = .produced v ∧ t.out = s.out ++ [v] ∧ t.status = .running) ∨
      ((∀ v, stepOutcome s t ≠ .produced v) ∧ t.out = s.out) := by
  obtain ho | ⟨v, ho, hs⟩ := step_out h
  · exact .inr ⟨stepOutcome_ne_produced ho, ho⟩
  · exact .inl ⟨v, stepOutcome_of_append hs ho, ho, hs⟩

/-! ## More input behind the queue -/

theorem setInput_eq_withQueues (vs : List Word) (s : State) :
    setInput vs s = withQueues (s.inq ++ vs) s.out s := rfl

/-- An instruction that completes does the same with more input behind the queue, and leaves that input there. -/
theorem body_setInput_ok {i : Instr} {s t : State} (vs : List Word) (h : body i s = .ok t) :
    body i (setInput vs s) = .ok (setInput vs t) := by
  have hx := exec_next.mpr (.inl h)
  rw [setInput_eq_withQueues, setInput_eq_withQueues]
  by_cases hi : ∃ x o, i = .input x o
  · obtain ⟨x, o, rfl⟩ := hi
    obtain ⟨ad, s1, v, rest, -, hq, ht⟩ := input_body_ok.mp h
    have hrest : t.inq = rest := congrArg State.inq ht
    rw [hq, hrest, input_exec_out hx]
    exact input_body_withQueues (rest ++ vs) s.out hq h
  · rw [(completed_of_body h).inq.resolve_right hi, ← exec_out_append_drop hx]
    exact body_withQueues_of_not_input (s.inq ++ vs) s.out (fun x o he => hi ⟨x, o, he⟩) h

theorem body_setInput_fault {i : Instr} {s : State} {k : FaultKind} {v : Int} (vs : List Word)
    (h : body i s = .error (.fault k v)) : body i (setInput vs s) = .error (.fault k v) := by
  rw [setInput_eq_withQueues]
  by_cases hi : ∃ x o, i = .input x o
  · obtain ⟨x, o, rfl⟩ := hi
    obtain hr | ⟨-, -, he⟩ := input_body_error.mp h
    · rw [input_body_error, resolveW_withQueues, hr]
      exact .inl rfl
    · cases he
  · exact body_error_withQueues_of_not_input _ _ (fun x o he => hi ⟨x, o, he⟩) h

/-- A step that does not suspend does the same with more input behind the queue, and leaves that input there
(R18, R120). -/
theorem step_setInput {s t : State} (vs : List Word) (h : step s = .next t) (ht : t.status ≠ .awaitingInput) :
    step (setInput vs s) = .next (setInput vs t) := by
  obtain ho | hl := over_or_live s
  · rw [step_of_over ho] at h
    cases h
    exact step_of_over ho
  · have hl' : Live (setInput vs s) := hl
    obtain ⟨k, v, hf, rfl⟩ | ⟨i, hf, hx⟩ := step_live_cases hl h
    · exact step_of_fetch_error hl' hf
    · refine (step_of_fetch_ok hl' hf).trans (exec_next.mpr ?_)
      obtain hb | ⟨e, hb, rfl⟩ := exec_next.mp hx
      · exact .inl (body_setInput_ok vs hb)
      · cases e with
        | fault k v => exact .inr ⟨_, body_setInput_fault vs hb, rfl⟩
        | awaitingInput => exact absurd rfl ht

end Sys2Proof.Proofs

/-!
PROOFS. Run calls (50_run_controller.md R102 to R111, R120): one turn of the loop, its characterization as steps up to
the first stop, an induction over the turns of a call that answers, and the obligations about run calls.
-/

namespace Sys2Proof.Proofs

open Sys2Proof.Machine Sys2Proof.Statements

/-! ## When a step stops a call -/

theorem stopReturn_eq_output {mode : RunMode} {o : StepOutcome} {s : State} {v : Word} :
    stopReturn mode o s = some (.output v) ↔ mode = .nextOutput ∧ o = .produced v := by
  cases o with
  | produced w => cases mode <;> simp [stopReturn]
  | fault | suspend | halted | continued => simp [stopReturn]

theorem stopReturn_eq_awaitingInput {mode : RunMode} {o : StepOutcome} {s : State} :
    stopReturn mode o s = some .awaitingInput ↔ o = .suspend := by
  cases o with
  | produced w => cases mode <;> simp [stopReturn]
  | fault | suspend | halted | continued => simp [stopReturn]

/-- The modes of R103 and R104 stop at the same outcomes. -/
theorem stopReturn_toInput (o : StepOutcome) (s : State) : stopReturn .toInput o s = stopReturn .toHalt o s := by
  cases o <;> rfl

/-- A step that does not stop `run_to_next_output` appended nothing. -/
theorem out_of_nextOutput_goes_on {s t : State} (h : step s = .next t)
    (hn : stopReturn .nextOutput (stepOutcome s t) t = none) : t.out = s.out := by
  obtain ⟨v, ho, -, -⟩ | ⟨-, hout⟩ := stepOutcome_output h
  · simp [ho, stopReturn] at hn
  · exact hout

/-! ## One turn of the loop -/

section Turn
variable {mode : RunMode} {s t : State} (h : step s = .next t)
include h

/-- One turn: the call ends with the return that the step's outcome gives, or goes on (R102). -/
theorem runLoop_turn (fuel : Nat) :
    runLoop mode (fuel + 1) s =
      (stopReturn mode (stepOutcome s t) t).elim (runLoop mode fuel t) fun r => some (r, t) := by
  simp only [runLoop, h]
  cases stepOutcome s t with
  | produced v => simp only [stopReturn]; split_ifs <;> rfl
  | fault | suspend | halted | continued => rfl

theorem runLoop_of_stop {r : RunReturn} (hr : stopReturn mode (stepOutcome s t) t = some r) (fuel : Nat) :
    runLoop mode (fuel + 1) s = some (r, t) := by
  rw [runLoop_turn h, hr]
  rfl

theorem runLoop_of_go_on (hn : stopReturn mode (stepOutcome s t) t = none) (fuel : Nat) :
    runLoop mode (fuel + 1) s = runLoop mode fuel t := by
  rw [runLoop_turn h, hn]
  rfl

end Turn

/-- Induction over the turns of a loop that answers: the last step stops it, and every step before it goes on. -/
theorem runLoop_induction {mode : RunMode} {r : RunReturn} {s' : State} {P : Nat → State → Prop}
    (stop : ∀ fuel s, step s = .next s' → stopReturn mode (stepOutcome s s') s' = some r → P (fuel + 1) s)
    (goOn : ∀ fuel s t, step s = .next t → stopReturn mode (stepOutcome s t) t = none → P fuel t → P (fuel + 1) s)
    {fuel : Nat} {s : State} (h : runLoop mode fuel s = some (r, s')) : P fuel s := by
  induction fuel generalizing s with
  | zero => cases h
  | succ fuel ih =>
    obtain ⟨t, ht⟩ := step_answers s
    cases hr : stopReturn mode (stepOutcome s t) t with
    | none => exact goOn fuel s t ht hr (ih (runLoop_of_go_on ht hr fuel ▸ h))
    | some r' =>
      obtain ⟨rfl, rfl⟩ := Prod.mk.inj (Option.some.inj ((runLoop_of_stop ht hr fuel).symm.trans h))
      exact stop fuel s ht hr

/-- What a loop answers is what its last step's outcome returns. -/
theorem runLoop_last {mode : RunMode} {fuel : Nat} {s s' : State} {r : RunReturn}
    (h : runLoop mode fuel s = some (r, s')) :
    ∃ u, step u = .next s' ∧ stopReturn mode (stepOutcome u s') s' = some r :=
  runLoop_induction (P := fun _ _ => ∃ u, step u = .next s' ∧ stopReturn mode (stepOutcome u s') s' = some r)
    (fun _ u hu hr => ⟨u, hu, hr⟩) (fun _ _ _ _ _ hu => hu) h

/-! ## The entry of a call -/

/-- Entering a run call changes nothing that its first step looks at (R109; log entry 9). -/
theorem step_enter {s : State} (hl : Live s) : step { s with status := .running } = step s := by
  have hr : enterRun { s with status := .running } = some { s with status := .running } := rfl
  simp only [step, enterRun_of_live hl, hr]

theorem runLoop_enter {s : State} (hl : Live s) (mode : RunMode) (fuel : Nat) :
    runLoop mode fuel { s with status := .running } = runLoop mode fuel s := by
  cases fuel with
  | zero => rfl
  | succ fuel =>
    obtain ⟨t, ht⟩ := step_answers s
    rw [runLoop_turn ht, runLoop_turn ((step_enter hl).trans ht)]
    rfl

theorem run_eq_runLoop {s : State} (hl : Live s) (mode : RunMode) (fuel : Nat) :
    run mode fuel s = runLoop mode fuel s := by
  rw [run_of_live hl, runLoop_enter hl]

theorem run_of_halted {s : State} (h : s.status = .halted) (mode : RunMode) (fuel : Nat) :
    run mode fuel s = some (.alreadyHalted, s) := by
  simp only [run, h]

theorem run_of_faulted {s : State} (h : s.status = .faulted) (mode : RunMode) (fuel : Nat) :
    run mode fuel s = some (.fault s.fault, s) := by
  simp only [run, h]

/-- What every run call on a machine that is over returns (R110, R111). -/
def overReturn (s : State) : RunReturn := if s.status = .halted then .alreadyHalted else .fault s.fault

theorem overReturn_ne_awaitingInput (s : State) : overReturn s ≠ .awaitingInput := by
  unfold overReturn
  split_ifs <;> simp

theorem overReturn_ne_output (s : State) (v : Word) : overReturn s ≠ .output v := by
  unfold overReturn
  split_ifs <;> simp

theorem run_eq_overReturn {s : State} (ho : s.Over) (mode : RunMode) (fuel : Nat) :
    run mode fuel s = some (overReturn s, s) := by
  obtain hs | hs := ho
  · simp [run_of_halted hs, overReturn, hs]
  · simp [run_of_faulted hs, overReturn, hs]

/-- A call that answers ran the loop on a live machine, or ran nothing on one that is over (R102, R110, R111). -/
theorem run_cases {mode : RunMode} {fuel : Nat} {s s' : State} {r : RunReturn}
    (h : run mode fuel s = some (r, s')) :
    (Live s ∧ runLoop mode fuel s = some (r, s')) ∨ (s.Over ∧ r = overReturn s ∧ s' = s) := by
  obtain ho | hl := over_or_live s
  · rw [run_eq_overReturn ho] at h
    cases h
    exact .inr ⟨ho, rfl, rfl⟩
  · exact .inl ⟨hl, run_eq_runLoop hl mode fuel ▸ h⟩

/-! ## The steps of a call -/

theorem core_run_succ {s t : State} (h : step s = .next t) (k : Nat) : core.run (k + 1) s = core.run k t := by
  have hs : core.step s = .next t := h
  simp only [Host.Core.run, hs]

/-- From `s`, `k` steps whose outcomes do not stop the mode lead to a step that stops it with return `r` in `s'`
(R102). -/
def FirstStop (mode : RunMode) (s : State) (k : Nat) (r : RunReturn) (s' : State) : Prop :=
  ∃ sk, core.run k s = .next sk ∧ step sk = .next s' ∧ stopReturn mode (stepOutcome sk s') s' = some r ∧
    ∀ j < k, ∃ a b, core.run j s = .next a ∧ step a = .next b ∧ stopReturn mode (stepOutcome a b) b = none

section FirstStop
variable {mode : RunMode} {s t s' : State} {r : RunReturn} (h : step s = .next t)
include h

theorem firstStop_zero : FirstStop mode s 0 r s' ↔ stopReturn mode (stepOutcome s t) t = some r ∧ t = s' := by
  constructor
  · rintro ⟨sk, hk, hs, hr, -⟩
    obtain rfl : s = sk := Host.Outcome.next.inj hk
    obtain rfl : t = s' := Host.Outcome.next.inj (h.symm.trans hs)
    exact ⟨hr, rfl⟩
  · rintro ⟨hr, rfl⟩
    exact ⟨s, rfl, h, hr, by simp⟩

theorem firstStop_succ (k : Nat) :
    FirstStop mode s (k + 1) r s' ↔ stopReturn mode (stepOutcome s t) t = none ∧ FirstStop mode t k r s' := by
  constructor
  · rintro ⟨sk, hk, hs, hr, hj⟩
    obtain ⟨⟨a, b, ha, hb, hn⟩, hj⟩ := Nat.forall_lt_succ_left.mp hj
    obtain rfl : s = a := Host.Outcome.next.inj ha
    obtain rfl : t = b := Host.Outcome.next.inj (h.symm.trans hb)
    simp only [core_run_succ h] at hk hj
    exact ⟨hn, sk, hk, hs, hr, hj⟩
  · rintro ⟨hn, sk, hk, hs, hr, hj⟩
    refine ⟨sk, (core_run_succ h k).trans hk, hs, hr, Nat.forall_lt_succ_left.mpr ⟨⟨s, t, rfl, h, hn⟩, ?_⟩⟩
    simpa only [core_run_succ h] using hj

end FirstStop

/-- The loop answers within its fuel exactly what the first stop gives (R102, R117). -/
theorem runLoop_eq_some_iff {mode : RunMode} {fuel : Nat} {s s' : State} {r : RunReturn} :
    runLoop mode fuel s = some (r, s') ↔ ∃ k < fuel, FirstStop mode s k r s' := by
  induction fuel generalizing s with
  | zero => simp [runLoop]
  | succ fuel ih =>
    obtain ⟨t, ht⟩ := step_answers s
    rw [Nat.exists_lt_succ_left, firstStop_zero ht]
    simp only [firstStop_succ ht]
    cases hr : stopReturn mode (stepOutcome s t) t with
    | none => simp [runLoop_of_go_on ht hr, ih]
    | some r' => simp [runLoop_of_stop ht hr]

/-- Settles O42: a call on a live machine is the loop from the machine set Running. -/
theorem runCallEndsAtTheFirstStop : Obligations.RunCallEndsAtTheFirstStop := by
  refine ⟨fun mode fuel s h => run_of_halted h mode fuel, fun mode fuel s h => run_of_faulted h mode fuel, ?_⟩
  intro mode fuel s r s' hl
  rw [run_of_live hl, runLoop_eq_some_iff]
  simp only [FirstStop, ← exists_and_left]

/-! ## Calls that collect several outputs -/

theorem runNextOutputN_of_output {fuel n : Nat} {s t : State} {v : Word}
    (h : run .nextOutput fuel s = some (.output v, t)) :
    runNextOutputN fuel (n + 1) s = (runNextOutputN fuel n t).map fun q => (v :: q.1, q.2) := by
  simp only [runNextOutputN, h]

theorem runNextOutputN_of_ended {fuel n : Nat} {s t : State} {r : RunReturn}
    (h : run .nextOutput fuel s = some (r, t)) (hr : ∀ v, r ≠ .output v) :
    runNextOutputN fuel (n + 1) s = some ([], .ended r, t) := by
  cases r with
  | output v => exact absurd rfl (hr v)
  | alreadyHalted | halted | awaitingInput | fault record => simp only [runNextOutputN, h]

/-- Its first call returns an output, and the rest collects the others, or it ends the whole (R106). -/
theorem runNextOutputN_succ_cases {fuel n : Nat} {s s' : State} {vs : List Word} {why : EndReason}
    (h : runNextOutputN fuel (n + 1) s = some (vs, why, s')) :
    (∃ v ws t, run .nextOutput fuel s = some (.output v, t) ∧ runNextOutputN fuel n t = some (ws, why, s') ∧
        vs = v :: ws) ∨
      ∃ r, run .nextOutput fuel s = some (r, s') ∧ (∀ v, r ≠ .output v) ∧ vs = [] ∧ why = .ended r := by
  cases hr : run .nextOutput fuel s with
  | none => simp [runNextOutputN, hr] at h
  | some q =>
    obtain ⟨r, t⟩ := q
    by_cases ho : ∃ v, r = .output v
    · obtain ⟨v, rfl⟩ := ho
      rw [runNextOutputN_of_output hr] at h
      obtain ⟨⟨ws, why', u⟩, hu, he⟩ := Option.map_eq_some_iff.mp h
      cases he
      exact .inl ⟨v, ws, t, rfl, hu, rfl⟩
    · have hne : ∀ v, r ≠ .output v := fun v hv => ho ⟨v, hv⟩
      rw [runNextOutputN_of_ended hr hne] at h
      cases h
      exact .inr ⟨r, rfl, hne, rfl, rfl⟩

/-! ## Machines that are over -/

/-- Settles O39: a halted machine answers at the entry of the call, so it is also the answer of the first call that
`run_to_next_output_n` makes. -/
theorem haltedMachineReportsAlreadyHalted : Obligations.HaltedMachineReportsAlreadyHalted :=
  fun _ h =>
    ⟨run_of_halted h, fun fuel _ => runNextOutputN_of_ended (run_of_halted h _ fuel) (by simp), fun _ => rfl⟩

/-- Settles O40: as O39, with the record that the state holds; a step does not enter. -/
theorem faultedMachineReportsItsRecord : Obligations.FaultedMachineReportsItsRecord :=
  ⟨fun _ h => ⟨run_of_faulted h, fun fuel _ => runNextOutputN_of_ended (run_of_faulted h _ fuel) (by simp)⟩,
    fun _ => step_of_over⟩

/-! ## Fuel -/

theorem runLoop_more_fuel {mode : RunMode} {fuel : Nat} {s s' : State} {r : RunReturn} (more : Nat)
    (h : runLoop mode fuel s = some (r, s')) : runLoop mode (fuel + more) s = some (r, s') := by
  refine runLoop_induction (P := fun n u => runLoop mode (n + more) u = some (r, s')) ?_ ?_ h
  · intro n u hu hr
    rw [Nat.add_right_comm, runLoop_of_stop hu hr]
  · intro n u t hu hn ih
    rw [Nat.add_right_comm, runLoop_of_go_on hu hn, ih]

theorem run_more_fuel {mode : RunMode} {fuel : Nat} {s s' : State} {r : RunReturn} (more : Nat)
    (h : run mode fuel s = some (r, s')) : run mode (fuel + more) s = some (r, s') := by
  obtain ⟨hl, hr⟩ | ⟨ho, rfl, rfl⟩ := run_cases h
  · rw [run_eq_runLoop hl]
    exact runLoop_more_fuel more hr
  · exact run_eq_overReturn ho mode _

theorem runNextOutputN_more_fuel {fuel n : Nat} {s s' : State} {vs : List Word} {why : EndReason} (more : Nat)
    (h : runNextOutputN fuel n s = some (vs, why, s')) : runNextOutputN (fuel + more) n s = some (vs, why, s') := by
  induction n generalizing s vs with
  | zero => exact h
  | succ n ih =>
    obtain ⟨v, ws, t, hr, ht, rfl⟩ | ⟨r, hr, hne, rfl, rfl⟩ := runNextOutputN_succ_cases h
    · rw [runNextOutputN_of_output (run_more_fuel more hr), ih ht]
      rfl
    · exact runNextOutputN_of_ended (run_more_fuel more hr) hne

/-- An answer mapped over one that more fuel keeps is kept too. -/
theorem map_eq_some_of_imp {α β : Type} {x y : Option α} {f : α → β} {b : β} (hxy : ∀ a, x = some a → y = some a)
    (h : x.map f = some b) : y.map f = some b := by
  obtain ⟨a, ha, rfl⟩ := Option.map_eq_some_iff.mp h
  rw [hxy a ha]
  rfl

/-- Settles O43: each kind of transaction is a run call, several of them, or uses no fuel. -/
theorem fuelDoesNotChangeTheAnswer : Obligations.FuelDoesNotChangeTheAnswer := by
  intro fuel more t s r s' h
  cases t with
  | setInput | inspectOutput | dumpMemory => exact h
  | runToHalt | runToNextInputNeeded | runToNextOutput =>
    exact map_eq_some_of_imp (fun _ hq => run_more_fuel more hq) h
  | runToNextOutputN n => exact map_eq_some_of_imp (fun _ hq => runNextOutputN_more_fuel more hq) h

/-! ## The modes -/

theorem runLoop_toInput (fuel : Nat) (s : State) : runLoop .toInput fuel s = runLoop .toHalt fuel s := by
  induction fuel generalizing s with
  | zero => rfl
  | succ fuel ih =>
    obtain ⟨t, ht⟩ := step_answers s
    rw [runLoop_turn ht, runLoop_turn ht, stopReturn_toInput, ih]

/-- Settles O44: the two modes stop at the same outcomes, and only `run_to_next_output` stops at an output. -/
theorem runToInputIsRunToHalt : Obligations.RunToInputIsRunToHalt := by
  refine fun fuel s => ⟨?_, fun r s' h v hv => ?_⟩
  · obtain ho | hl := over_or_live s
    · rw [run_eq_overReturn ho, run_eq_overReturn ho]
    · rw [run_eq_runLoop hl, run_eq_runLoop hl, runLoop_toInput]
  · obtain ⟨-, hr⟩ | ⟨-, rfl, -⟩ := run_cases h
    · obtain ⟨u, -, hu⟩ := runLoop_last hr
      obtain ⟨hmode, -⟩ := stopReturn_eq_output.mp (hv ▸ hu)
      cases hmode
    · exact overReturn_ne_output s v hv

/-! ## Suspension -/

/-- A step that stops a call with AwaitingInput is one from a live machine with an empty queue, and changes the status
alone (R107, R108). -/
theorem suspending_step {mode : RunMode} {u t : State} (h : step u = .next t)
    (hr : stopReturn mode (stepOutcome u t) t = some .awaitingInput) :
    Live u ∧ u.inq = [] ∧ t = { u with status := .awaitingInput } := by
  have ht := stepOutcome_eq_suspend.mp (stopReturn_eq_awaitingInput.mp hr)
  obtain ⟨hl, hq, -, he⟩ := awaitingInputOnlyAtAnEmptyInput u t h ht
  exact ⟨hl, hq, he⟩

/-- The step after a suspension, without new input, is the suspending step again (R109). -/
theorem step_of_suspended {u t : State} (h : step u = .next t) (hl : Live u)
    (ht : t = { u with status := .awaitingInput }) : step t = .next t := by
  have hlive : Live t := .inr (congrArg State.status ht)
  have hsame : ({ t with status := .running } : State) = { u with status := .running } := by rw [ht]
  rw [← step_enter hlive, hsame, step_enter hl, h]

/-- Settles O45: the machine suspended differs from the one that took the suspending step in its status only, which the
next call overwrites, so that call's first step suspends again. -/
theorem suspensionIsStable : Obligations.SuspensionIsStable := by
  intro mode fuel s s' h
  obtain ⟨-, hr⟩ | ⟨-, hne, -⟩ := run_cases h
  · obtain ⟨u, hu, hstop⟩ := runLoop_last hr
    obtain ⟨hl, hq, ht⟩ := suspending_step hu hstop
    have hs' : s'.status = .awaitingInput := congrArg State.status ht
    have hagain : ∀ mode' fuel', run mode' (fuel' + 1) s' = some (.awaitingInput, s') := by
      intro mode' fuel'
      rw [run_eq_runLoop (.inr hs')]
      exact runLoop_of_stop (step_of_suspended hu hl ht)
        (stopReturn_eq_awaitingInput.mpr (stepOutcome_eq_suspend.mpr hs')) fuel'
    exact ⟨hs', (congrArg State.inq ht).trans hq, hagain,
      fun fuel' n => runNextOutputN_of_ended (hagain _ fuel') (by simp)⟩
  · exact absurd hne.symm (overReturn_ne_awaitingInput s)

/-! ## Outputs -/

/-- From `s` to `t` the outputs grew by the value that `r` returns, with `t` Running, or `r` returns none and they did
not change (R105). -/
def ReturnsFreshValue (r : RunReturn) (s t : State) : Prop :=
  (∀ v, r = .output v → t.out = s.out ++ [v] ∧ t.status = .running) ∧ ((∀ v, r ≠ .output v) → t.out = s.out)

theorem returnsFreshValue_of_stop {s t : State} {r : RunReturn} (h : step s = .next t)
    (hr : stopReturn .nextOutput (stepOutcome s t) t = some r) : ReturnsFreshValue r s t := by
  obtain ⟨v, ho, hout, hst⟩ | ⟨ho, hout⟩ := stepOutcome_output h
  · obtain rfl : .output v = r := Option.some.inj ((stopReturn_eq_output.mpr ⟨rfl, ho⟩).symm.trans hr)
    exact ⟨fun w hw => RunReturn.output.inj hw ▸ ⟨hout, hst⟩, fun hne => absurd rfl (hne v)⟩
  · exact ⟨fun w hw => absurd (stopReturn_eq_output.mp (hw ▸ hr)).2 (ho w), fun _ => hout⟩

/-- Settles O46: every step before the last appended nothing, and the last appended the value returned, or nothing. -/
theorem nextOutputReturnsTheFreshValue : Obligations.NextOutputReturnsTheFreshValue := by
  intro fuel s r s' h
  obtain ⟨-, hr⟩ | ⟨-, rfl, rfl⟩ := run_cases h
  · refine runLoop_induction (P := fun _ u => ReturnsFreshValue r u s') ?_ ?_ hr
    · exact fun _ u hu hstop => returnsFreshValue_of_stop hu hstop
    · intro _ u t hu hn ih
      rwa [ReturnsFreshValue, out_of_nextOutput_goes_on hu hn] at ih
  · exact ⟨fun v hv => absurd hv (overReturn_ne_output s' v), fun _ => rfl⟩

/-- Settles O47: by induction on the outputs still wanted; each call before the last returned the one value it
appended. -/
theorem nextOutputNCollectsTheOutputs : Obligations.NextOutputNCollectsTheOutputs := by
  intro fuel n
  induction n with
  | zero =>
    intro s vs why s' h
    cases h
    simp
  | succ n ih =>
    intro s vs why s' h
    obtain ⟨v, ws, t, hr, ht, rfl⟩ | ⟨r, hr, hne, rfl, rfl⟩ := runNextOutputN_succ_cases h
    · obtain ⟨hfresh, -⟩ := nextOutputReturnsTheFreshValue fuel s _ t hr
      obtain ⟨hout, hlen, hwhy, hend⟩ := ih t ws why s' ht
      refine ⟨?_, Nat.succ_le_succ hlen, by simpa using hwhy, hend⟩
      rw [hout, (hfresh v rfl).1, List.append_assoc, List.singleton_append]
    · obtain ⟨-, hout⟩ := nextOutputReturnsTheFreshValue fuel s r s' hr
      exact ⟨by simpa using hout hne, Nat.zero_le _, by simp, fun v hv => hne v (EndReason.ended.inj hv)⟩

/-! ## Input fed earlier or later -/

/-- More input behind the queue changes no outcome of a step (R120). -/
theorem stopReturn_setInput (mode : RunMode) (vs : List Word) (s t : State) :
    stopReturn mode (stepOutcome (setInput vs s) (setInput vs t)) (setInput vs t) =
      stopReturn mode (stepOutcome s t) t := rfl

theorem step_setInput_of_stopReturn {mode : RunMode} {s t : State} (vs : List Word) (h : step s = .next t)
    (hr : stopReturn mode (stepOutcome s t) t ≠ some .awaitingInput) :
    step (setInput vs s) = .next (setInput vs t) :=
  step_setInput vs h fun ht => hr (stopReturn_eq_awaitingInput.mpr (stepOutcome_eq_suspend.mpr ht))

theorem runLoop_setInput_of_go_on {mode : RunMode} {s t : State} (vs : List Word) (h : step s = .next t)
    (hn : stopReturn mode (stepOutcome s t) t = none) (fuel : Nat) :
    runLoop mode (fuel + 1) (setInput vs s) = runLoop mode fuel (setInput vs t) :=
  runLoop_of_go_on (step_setInput_of_stopReturn (mode := mode) vs h (by simp [hn]))
    (stopReturn_setInput mode vs s t ▸ hn) fuel

/-- A loop that does not end for want of input leaves the further input in the queue. -/
theorem runLoop_setInput {mode : RunMode} {fuel : Nat} {s s' : State} {r : RunReturn} (vs : List Word)
    (h : runLoop mode fuel s = some (r, s')) (hne : r ≠ .awaitingInput) :
    runLoop mode fuel (setInput vs s) = some (r, setInput vs s') := by
  refine runLoop_induction (P := fun n u => runLoop mode n (setInput vs u) = some (r, setInput vs s')) ?_ ?_ h
  · intro n u hu hr
    have hstep := step_setInput_of_stopReturn (mode := mode) vs hu (by simpa [hr] using hne)
    exact runLoop_of_stop hstep (stopReturn_setInput mode vs u s' ▸ hr) n
  · intro n u t hu hn ih
    rw [runLoop_setInput_of_go_on vs hu hn, ih]

/-- A loop that ends for want of input, with the input fed first, goes on as the call after the feed does. -/
theorem runLoop_setInput_resume {mode : RunMode} {fuel more : Nat} {s s1 : State} {vs : List Word}
    {q : RunReturn × State} (h : runLoop mode fuel s = some (.awaitingInput, s1))
    (hmore : run mode more (setInput vs s1) = some q) :
    runLoop mode (fuel + more) (setInput vs s) = some q := by
  refine runLoop_induction (P := fun n u => runLoop mode (n + more) (setInput vs u) = some q) ?_ ?_ h
  · intro n u hu hr
    obtain ⟨hl, -, rfl⟩ := suspending_step hu hr
    have hlive : Live (setInput vs u) := hl
    rw [run_of_live (.inr rfl)] at hmore
    rw [← runLoop_enter hlive, Nat.add_comm]
    exact runLoop_more_fuel (n + 1) hmore
  · intro n u t hu hn ih
    rw [Nat.add_right_comm, runLoop_setInput_of_go_on vs hu hn, ih]

/-- Settles O49: on a machine that is over the call runs nothing; on a live one it is the loop. -/
theorem inputMayBeSplitAnyhow : Obligations.InputMayBeSplitAnyhow := by
  refine fun mode fuel s vs => ⟨fun r s' h hne => ?_, fun more s1 r s2 h hmore => ?_⟩
  · obtain ⟨hl, hr⟩ | ⟨ho, rfl, rfl⟩ := run_cases h
    · have hlive : Live (setInput vs s) := hl
      rw [run_eq_runLoop hlive]
      exact runLoop_setInput vs hr hne
    · exact run_eq_overReturn (s := setInput vs s') ho mode fuel
  · obtain ⟨hl, hr⟩ | ⟨-, hover, -⟩ := run_cases h
    · have hlive : Live (setInput vs s) := hl
      rw [run_eq_runLoop hlive]
      exact runLoop_setInput_resume hr hmore
    · exact absurd hover.symm (overReturn_ne_awaitingInput s)

end Sys2Proof.Proofs

/-!
PROOFS. The host and its machines (50_run_controller.md R112 to R116, 60_exceptions.md R146): feeding, inspecting and
dumping, clones, and calls on different machines.
-/

namespace Sys2Proof.Proofs

open Sys2Proof.Machine Sys2Proof.Statements

/-! ## Feeding and inspecting -/

theorem memoryDump_length (s : State) : (memoryDump s).length = s.mem.len := by
  simp [memoryDump]

/-- Entry `a` of the dump is cell `a` with its address (R114). -/
theorem memoryDump_getElem? {s : State} {a : Nat} (h : a < s.mem.len) :
    (memoryDump s)[a]? = some (a, s.mem.read a) := by
  simp [memoryDump, h]

/-- Settles O48: none of the three runs anything, and the dump's entries are the cells in address order. -/
theorem feedAndInspectionDoOnlyThat : Obligations.FeedAndInspectionDoOnlyThat :=
  fun _ s => ⟨fun _ => rfl, rfl, memoryDump s, rfl, memoryDump_length s, fun _ => memoryDump_getElem?⟩

/-! ## Clones -/

theorem fleetCall_clone {k : Nat} {f : List State} {s : State} (h : f[k]? = some s) (fuel : Nat) :
    fleetCall fuel (.clone k) f = some (.created f.length, f ++ [s]) := by
  simp only [fleetCall, h]

/-- Settles O50: the copy stands after the machines that were there. -/
theorem cloneIsAnEqualFurtherMachine : Obligations.CloneIsAnEqualFurtherMachine :=
  fun fuel _ f s h =>
    ⟨f ++ [s], fleetCall_clone h fuel, List.getElem?_concat_length, List.length_append,
      fun _ hj => List.getElem?_append_left hj⟩

/-! ## Calls on different machines -/

/-- What a call on a machine, or on a number that no machine has, answers, and the state it leaves there; in the second
case there is no place for a state, and any stands for it (R116, R121). -/
def AnswersWith (fuel : Nat) (t : Transaction) : Option State → FleetResponse → State → Prop
  | none, r, _ => r = .noSuchMachine
  | some s, r, v => ∃ q, transact fuel t s = some (q, v) ∧ r = .answer q

/-- A call on machine `k` looks at machine `k` and writes machine `k` (R116). -/
theorem fleetCall_on_iff {fuel k : Nat} {t : Transaction} {f g : List State} {r : FleetResponse} :
    fleetCall fuel (.on k t) f = some (r, g) ↔ ∃ v, AnswersWith fuel t f[k]? r v ∧ g = f.set k v := by
  cases hk : f[k]? with
  | none =>
    have hset : ∀ v, f.set k v = f := fun v => List.set_eq_of_length_le (List.getElem?_eq_none_iff.mp hk)
    simp only [fleetCall, hk, AnswersWith, hset, Option.some.injEq, Prod.mk.injEq]
    exact ⟨fun ⟨hr, hg⟩ => ⟨State.reset, hr.symm, hg.symm⟩, fun ⟨_, hr, hg⟩ => ⟨hr.symm, hg.symm⟩⟩
  | some s =>
    simp only [fleetCall, hk, AnswersWith, Option.map_eq_some_iff, Prod.mk.injEq]
    constructor
    · rintro ⟨⟨q, v⟩, hq, rfl, rfl⟩
      exact ⟨v, ⟨q, hq, rfl⟩, rfl⟩
    · rintro ⟨v, ⟨q, hq, rfl⟩, rfl⟩
      exact ⟨(q, v), hq, rfl, rfl⟩

/-- Settles O51: each call reads and writes one place of the list, and writes to different places commute. -/
theorem machinesShareNothing : Obligations.MachinesShareNothing := by
  constructor
  · intro fuel k t f g r h j hj
    obtain ⟨v, -, rfl⟩ := fleetCall_on_iff.mp h
    exact List.getElem?_set_ne hj.symm
  · intro fuel j k t u f f1 f2 r1 r2 hjk h1 h2
    obtain ⟨v, hv, rfl⟩ := fleetCall_on_iff.mp h1
    obtain ⟨w, hw, rfl⟩ := fleetCall_on_iff.mp h2
    rw [List.getElem?_set_ne hjk] at hw
    rw [← List.getElem?_set_ne hjk.symm (a := w)] at hv
    exact ⟨f.set k w, fleetCall_on_iff.mpr ⟨w, hw, rfl⟩, fleetCall_on_iff.mpr ⟨v, hv, List.set_comm v w hjk⟩⟩

end Sys2Proof.Proofs

/-!
PROOFS. The exceptions (60_exceptions.md): a word that names no instruction stops the step at its fetch, and every
instruction resolves its operands before it does anything else, so each decode fault is taken in its order.
-/

namespace Sys2Proof.Proofs

open Sys2Proof.Machine Sys2Proof.Statements

/-! ## A word that names no instruction -/

theorem fetch_of_decodeAt_error {s : State} {e : DecodeError} (hpc : s.pc.toNat < s.cfg.memMax.val)
    (h : decodeAt s = .error e) : fetch s = .error (.fault .unknownOpcode e.value) := by
  unfold decodeAt at h
  rw [fetch, if_pos hpc, h]
  rfl

/-- A live machine whose cells at `pc` are rejected enters UnknownOpcode with the rejection's value (R60, R131). -/
theorem step_of_decodeAt_error {s : State} {e : DecodeError} (hl : Live s) (hpc : s.pc.toNat < s.cfg.memMax.val)
    (h : decodeAt s = .error e) : step s = .next (faultState s .unknownOpcode e.value) := by
  have hf : fetch { s with status := .running } = .error (.fault .unknownOpcode e.value) :=
    fetch_of_decodeAt_error hpc h
  rw [step_of_fetch_error hl hf, abandon, takeFault_entered]

/-- Settles O7: these are the two ways the decoder rejects a word, and each rejection's value is the record's. -/
theorem unknownWordFaults : Obligations.UnknownWordFaults := by
  intro s hl hpc
  constructor
  · intro hneg
    exact step_of_decodeAt_error hl hpc ((decodeRejectsExactlyTheUnknownOpcodes _ _ _ _ _).mpr (.inl ⟨hneg, rfl⟩))
  · intro hpos hop
    exact step_of_decodeAt_error hl hpc
      ((decodeRejectsExactlyTheUnknownOpcodes _ _ _ _ _).mpr (.inr ⟨hpos, hop, rfl⟩))

/-! ## Decode faults -/

/-- Format RRW resolves all three operands before its ALU runs, so a decode fault comes first (R138). -/
theorem decodeFaultsTaken_runRRW {alu : Config → Word → Word → Except Abort Word} {i : Instr} {a b t : Operand}
    (hi : ∀ s, body i s = runRRW alu i.excess a b t s)
    (ho : i.operands = [(.read, a), (.read, b), (.write, t)]) : DecodeFaultsTaken i :=
  decodeFaultsTaken_of_failsWith (fun _ => failsWith_resolveRRW ho)
    fun he => (hi _).trans (runRRW_error.mpr (.inl he))

/-- Settles O11: by format, since each format's resolution fails with exactly the first fault of R138's order, and the
instruction then ends with that failure. -/
theorem decodeFaultsAreTakenInOrder : Obligations.DecodeFaultsAreTakenInOrder := by
  intro i
  cases i with
  | add x a b t => exact decodeFaultsTaken_runRRW (add_body x a b t) rfl
  | multiply x a b t => exact decodeFaultsTaken_runRRW (multiply_body x a b t) rfl
  | lessThan x a b t => exact decodeFaultsTaken_runRRW (lessThan_body x a b t) rfl
  | equals x a b t => exact decodeFaultsTaken_runRRW (equals_body x a b t) rfl
  | jumpIfTrue x c t => exact decodeFaultsTaken_runJump (jumpIfTrue_body x c t) rfl
  | jumpIfFalse x c t => exact decodeFaultsTaken_runJump (jumpIfFalse_body x c t) rfl
  | input x t =>
    exact decodeFaultsTaken_of_failsWith (fun _ => failsWith_resolveW (i := .input x t) rfl)
      fun he => input_body_error.mpr (.inl he)
  | output x a =>
    exact decodeFaultsTaken_of_failsWith (fun _ => failsWith_resolveR (i := .output x a) rfl) output_body_error.mpr
  | adjustRelativeBase x a =>
    exact decodeFaultsTaken_of_failsWith (fun _ => failsWith_resolveR (i := .adjustRelativeBase x a) rfl)
      fun he => adjust_body_error.mpr (.inl he)
  | halt x =>
    exact decodeFaultsTaken_of_failsWith (fun _ => failsWith_fetchWord_of_operands (i := .halt x) rfl)
      halt_body_error.mpr

end Sys2Proof.Proofs

/-!
PROOFS. Reset with a program (50_run_controller.md R115; 70_reset_and_hazards.md R160): what the memory that
`new(program)` makes reads as and how long it is, and which programs it refuses.
-/

namespace Sys2Proof.Proofs

open Sys2Proof.Machine

/-- Placed from cell 0 of the reset memory, a program's cells are the only ones that can differ from zero (R40). -/
theorem place_reset_read (program : List Word) (a : Nat) :
    (State.reset.mem.place 0 program).read a = program.getD a 0 := by
  rw [place_read reset_wf]
  split_ifs with h
  · rw [Nat.sub_zero]
  · have hbeyond : program.length ≤ a := by omega
    rw [List.getD_eq_default _ _ hbeyond]
    rfl

/-- No cell exists beyond the program's. -/
theorem place_reset_len (program : List Word) : (State.reset.mem.place 0 program).len = program.length := by
  rw [place_len]
  split_ifs with h
  · rw [h]
    rfl
  · rw [Nat.zero_add]
    exact Nat.zero_max _

theorem newMachine_of_fits {cfg : Config} {program : List Word} (h : program.length ≤ cfg.memMax.val) :
    newMachine cfg program = .ok { State.reset with cfg := cfg, mem := State.reset.mem.place 0 program } :=
  if_pos h

theorem newMachine_of_too_long {cfg : Config} {program : List Word} (h : cfg.memMax.val < program.length) :
    newMachine cfg program = .error .programTooLong :=
  if_neg (Nat.not_le.mpr h)

/-- Settles O34: the machine is the reset state with the program placed from cell 0, which meets the invariant as
every machine that `new` makes does; the length test alone decides the refusal. -/
theorem newMachineHoldsTheProgram : Obligations.NewMachineHoldsTheProgram := by
  intro cfg program
  refine ⟨fun hfit => ?_, newMachine_of_too_long⟩
  have hnew := newMachine_of_fits hfit
  exact ⟨_, hnew, newMachine_inv hnew, rfl, place_reset_len program, place_reset_read program,
    rfl, rfl, rfl, rfl, rfl, rfl, rfl⟩

end Sys2Proof.Proofs
